-- ==== Sys2Proof/Config.lean ====
section
/-! DEFINITION. The hardware's structural parameters (`spec/00_scope.md` rule R4): the numbers that fix the widths
and sizes of the state's types. The other parameters of R4 stand where a correction would be made: OPCODE_MAP in
`Sys2Proof/Decode.lean` (`opcodeOf`), SP_INDEX, SP_RESET, PC_RESET, FL_RESET, FL_E, FL_G, FL_L and LOAD_BASE in
`Sys2Proof/Machine/Params.lean`. The hardware has no free value (`60_exceptions.md` rule R170), so none stands here. -/

namespace Sys2Proof.Config

/-- `XLEN` (R4): the width of a register and of a memory cell. -/
abbrev xlen : Nat := 8

/-- `MEM_SIZE` (R4): the number of memory bytes, addresses 0..255. -/
abbrev memSize : Nat := 256

/-- `NREG` (R4): the number of general registers. -/
abbrev nReg : Nat := 8

/-- `PC_WIDTH` (R4, `10_state.md` R17): the program counter does not wrap at 255, so it has a ninth bit. -/
abbrev pcWidth : Nat := 9

end Sys2Proof.Config
end

