-- ==== Sys2Proof/Word.lean ====
section
/-! DEFINITION. The word types: a byte (`spec/00_scope.md` rule R5), a program-counter value (`10_state.md` rule R17)
and a checked register index (`10_state.md` rules R11, R12). The widths are those of `Sys2Proof/Config.lean` (XLEN, PC_WIDTH, NREG), written as
numerals; `Sys2Proof/Laws/Ops.lean` proves them equal. -/

namespace Sys2Proof

/-- A register value, memory cell, operand byte or immediate: unsigned, 0..255 (R5). -/
abbrev Byte := BitVec 8

/-- A value of the 9-bit program counter (R17). -/
abbrev PcWord := BitVec 9

/-- The index of a general register, 0..7 (R11): what `RegIndex` of R6 returns. -/
abbrev RegIdx := Fin 8

end Sys2Proof
end

