-- ==== Sys2Proof/Syntax.lean ====
section
/-! DEFINITION. The 21 instructions (`spec/30_encoding.md` rule R55), their mnemonics and their operand formats (R52).
A register operand is the whole operand BYTE, not a register: a byte above 7 is legal syntax that the machine faults
on when, and only when, it uses the byte as an index (`10_state.md` rule R12). -/

namespace Sys2Proof

/-- The mnemonics of the opcode table, in its order. -/
inductive Mnemonic where
  | add | mul | mod | cmp | and | not | or | xor | shl | shr
  | hlt | ldi | st | push | pop | prn | call | ret | jmp | jeq | jne
  deriving DecidableEq, Repr

/-- The four operand formats of R52. -/
inductive Format where
  /-- no operand byte -/
  | z
  /-- one register-index byte -/
  | r
  /-- two register-index bytes -/
  | rr
  /-- a register-index byte and an immediate byte -/
  | ri
  deriving DecidableEq, Repr

/-- An instruction with its operand bytes, one constructor per row of the opcode table. -/
inductive Instr where
  | add  (a b : Byte)
  | mul  (a b : Byte)
  | mod  (a b : Byte)
  | cmp  (a b : Byte)
  | and  (a b : Byte)
  | not  (a : Byte)
  | or   (a b : Byte)
  | xor  (a b : Byte)
  | shl  (a b : Byte)
  | shr  (a b : Byte)
  | hlt
  | ldi  (r imm : Byte)
  | st   (a b : Byte)
  | push (r : Byte)
  | pop  (r : Byte)
  | prn  (r : Byte)
  | call (r : Byte)
  | ret
  | jmp  (r : Byte)
  | jeq  (r : Byte)
  | jne  (r : Byte)
  deriving DecidableEq, Repr

/-- Every mnemonic, in the opcode table's order. -/
def Mnemonic.all : List Mnemonic :=
  [.add, .mul, .mod, .cmp, .and, .not, .or, .xor, .shl, .shr,
   .hlt, .ldi, .st, .push, .pop, .prn, .call, .ret, .jmp, .jeq, .jne]

/-- The operand format of each instruction (R52, R55). -/
def Mnemonic.format : Mnemonic → Format
  | .add | .mul | .mod | .cmp | .and | .or | .xor | .shl | .shr | .st => .rr
  | .ldi => .ri
  | .not | .push | .pop | .prn | .call | .jmp | .jeq | .jne => .r
  | .hlt | .ret => .z

/-- The number of operand bytes of a format (R52). -/
def Format.operandBytes : Format → Nat
  | .z => 0
  | .r => 1
  | .rr => 2
  | .ri => 2

/-- Which row of the opcode table an instruction is. -/
def Instr.mnemonic : Instr → Mnemonic
  | .add _ _ => .add
  | .mul _ _ => .mul
  | .mod _ _ => .mod
  | .cmp _ _ => .cmp
  | .and _ _ => .and
  | .not _ => .not
  | .or _ _ => .or
  | .xor _ _ => .xor
  | .shl _ _ => .shl
  | .shr _ _ => .shr
  | .hlt => .hlt
  | .ldi _ _ => .ldi
  | .st _ _ => .st
  | .push _ => .push
  | .pop _ => .pop
  | .prn _ => .prn
  | .call _ => .call
  | .ret => .ret
  | .jmp _ => .jmp
  | .jeq _ => .jeq
  | .jne _ => .jne

/-- The operand bytes of an instruction, in the order they lie in memory (R52). -/
def Instr.operands : Instr → List Byte
  | .add a b | .mul a b | .mod a b | .cmp a b | .and a b | .or a b | .xor a b | .shl a b | .shr a b
  | .st a b | .ldi a b => [a, b]
  | .not a | .push a | .pop a | .prn a | .call a | .jmp a | .jeq a | .jne a => [a]
  | .hlt | .ret => []

end Sys2Proof
end

