-- ==== Sys2Proof/WellFormed.lean ====
section
/-! DEFINITION. Well-formed instructions (`spec/30_encoding.md` rule R52: a register index "must have the value
0..7"). The machine also runs ill-formed ones: it faults where it uses the byte as an index (`10_state.md` R12). -/

namespace Sys2Proof

/-- An operand byte that names a register. -/
def Byte.isRegister (b : Byte) : Bool := decide (b.toNat < Config.nReg)

/-- Every operand byte that the instruction's format calls a register index names a register; LDI's immediate and the
Z format have nothing to check. -/
def Instr.wellFormed : Instr → Bool
  | .add a b | .mul a b | .mod a b | .cmp a b | .and a b | .or a b | .xor a b | .shl a b | .shr a b
  | .st a b => Byte.isRegister a && Byte.isRegister b
  | .ldi r _ => Byte.isRegister r
  | .not a | .push a | .pop a | .prn a | .call a | .jmp a | .jeq a | .jne a => Byte.isRegister a
  | .hlt | .ret => true

end Sys2Proof
end

