-- ==== Sys2Proof/Decode.lean ====
section
/-! DEFINITION. The opcode byte's fields, OPCODE_MAP, the decoder and the encoder (`spec/30_encoding.md` rules R51 to
R58). The decoder is total on every opcode byte and rejects by name; the encoder is written from the same table. -/

namespace Sys2Proof

/-! ### The fields of the opcode byte (R51: `CCAPIIII`) -/

/-- Bits 7:6, the number of operand bytes. -/
def opCount (ir : Byte) : Nat := (ir.extractLsb' 6 2).toNat

/-- Bit 5, "is ALU operation". -/
def opIsAlu (ir : Byte) : Bool := ir.getLsbD 5

/-- Bit 4, "instruction sets PC itself". -/
def opSetsPc (ir : Byte) : Bool := ir.getLsbD 4

/-- Bits 3:0, the instruction identifier. -/
def opIdent (ir : Byte) : Nat := (ir.extractLsb' 0 4).toNat

/-! ### OPCODE_MAP -/

/-- OPCODE_MAP (R55, decision D5): the one place that holds the 21 opcode bytes. UNVERIFIED (the spec's own mark "from
general knowledge" on the low nibbles, on CMP's bit 5 and on NOT's count); unsafe; assumption log entry 4. -/
def opcodeOf : Mnemonic → Byte
  | .add  => 0b10100000#8
  | .mul  => 0b10100010#8
  | .mod  => 0b10100100#8
  | .cmp  => 0b10100111#8
  | .and  => 0b10101000#8
  | .not  => 0b01101001#8
  | .or   => 0b10101010#8
  | .xor  => 0b10101011#8
  | .shl  => 0b10101100#8
  | .shr  => 0b10101101#8
  | .hlt  => 0b00000001#8
  | .ldi  => 0b10000010#8
  | .st   => 0b10000100#8
  | .push => 0b01000101#8
  | .pop  => 0b01000110#8
  | .prn  => 0b01000111#8
  | .call => 0b01010000#8
  | .ret  => 0b00010001#8
  | .jmp  => 0b01010100#8
  | .jeq  => 0b01010101#8
  | .jne  => 0b01010110#8

/-- The instruction an opcode byte selects: all 8 bits must match (R55, R56). -/
def lookupOpcode (ir : Byte) : Option Mnemonic :=
  Mnemonic.all.find? fun m => opcodeOf m == ir

/-! ### Decoding -/

/-- The two ways an opcode byte is no instruction (R58). -/
inductive DecodeError where
  /-- bit 5 clear and not one of the 11 non-ALU opcodes -/
  | unknownOpcode (opcode : Byte)
  /-- bit 5 set and not one of the 10 ALU opcodes -/
  | unsupportedALUOperation (opcode : Byte)
  deriving DecidableEq, Repr

/-- The instruction of a mnemonic whose operand bytes are the first ones of `b1`, `b2`; a byte the format does not have
is not used (R52). -/
def Mnemonic.withOperands : Mnemonic → Byte → Byte → Instr
  | .add,  b1, b2 => .add b1 b2
  | .mul,  b1, b2 => .mul b1 b2
  | .mod,  b1, b2 => .mod b1 b2
  | .cmp,  b1, b2 => .cmp b1 b2
  | .and,  b1, b2 => .and b1 b2
  | .not,  b1, _  => .not b1
  | .or,   b1, b2 => .or b1 b2
  | .xor,  b1, b2 => .xor b1 b2
  | .shl,  b1, b2 => .shl b1 b2
  | .shr,  b1, b2 => .shr b1 b2
  | .hlt,  _,  _  => .hlt
  | .ldi,  b1, b2 => .ldi b1 b2
  | .st,   b1, b2 => .st b1 b2
  | .push, b1, _  => .push b1
  | .pop,  b1, _  => .pop b1
  | .prn,  b1, _  => .prn b1
  | .call, b1, _  => .call b1
  | .ret,  _,  _  => .ret
  | .jmp,  b1, _  => .jmp b1
  | .jeq,  b1, _  => .jeq b1
  | .jne,  b1, _  => .jne b1

/-- The decoder (R56): the opcode byte and the two bytes that follow it. Total; a miss is rejected by name, and which
name depends on bit 5 alone (R58). -/
def decode (ir b1 b2 : Byte) : Except DecodeError Instr :=
  match lookupOpcode ir with
  | some m => .ok (m.withOperands b1 b2)
  | none => .error (if opIsAlu ir then .unsupportedALUOperation ir else .unknownOpcode ir)

/-- The decoder on a sequence of bytes, first byte first; a byte the sequence does not have counts as 0. -/
def decodeBytes (bs : List Byte) : Except DecodeError Instr :=
  decode (bs.getD 0 0) (bs.getD 1 0) (bs.getD 2 0)

/-! ### Encoding -/

/-- The bytes of an instruction: its opcode byte, then its operand bytes at ascending addresses (R50, R52). -/
def encode (i : Instr) : List Byte := opcodeOf i.mnemonic :: i.operands

/-! ### Instruction words as `spec/opcode_table.json` numbers their bits -/

/-- Byte `k` of a table word of `nbits` bits: bits `8k+7 .. 8k` of `w`; every bit at or above `nbits` is 0. -/
def tableByte (nbits w k : Nat) : Byte := BitVec.ofNat 8 ((w % 2 ^ nbits) >>> (8 * k))

/-- The three bytes (the longest instruction) of a table word, first byte first. -/
def tableBytes (nbits w : Nat) : List Byte :=
  [tableByte nbits w 0, tableByte nbits w 1, tableByte nbits w 2]

/-- What the decoder reads from the table word `w` of `nbits` bits. -/
def decodeTableWord (nbits w : Nat) : Option Instr :=
  match decodeBytes (tableBytes nbits w) with
  | .ok i => some i
  | .error _ => none

end Sys2Proof
end

