-- ==== Sys2Proof/Machine/Params.lean ====
section
/-! DEFINITION. The parameters of `spec/00_scope.md` rule R4 that are values, not sizes: the stack pointer's index,
the reset values, the flag bit positions and the load address. -/

namespace Sys2Proof.Machine

/-- `SP_INDEX` (R4, `10_state.md` R13): register 7 is the stack pointer. -/
def spIndex : RegIdx := 7

/-- `SP_RESET` (R4, R23). -/
def spReset : Byte := 0xF4#8

/-- `PC_RESET` (R4, R23, R181; the spec's decision D1, log entry 5). -/
def pcReset : PcWord := 0#9

/-- `FL_RESET` (R4, R23; the spec's decision D2, log entry 5). -/
def flReset : Byte := 0#8

/-- `FL_E` (R4, R14; the spec's decision D4, log entry 6): the bit position of Equal. -/
def flE : Nat := 0

/-- `FL_G` (R4, R14; D4, log entry 6): the bit position of Greater-Than. -/
def flG : Nat := 1

/-- `FL_L` (R4, R14; D4, log entry 6): the bit position of Less-Than. -/
def flL : Nat := 2

/-- `LOAD_BASE` (R4, R184): the address the loader writes the first program byte to. -/
def loadBase : Nat := 0

/-- What every cell of memory holds after reset (R23: "zero-initialized"), and so what an address reads as that
`State.mem` does not list. -/
def unlistedByte : Byte := 0#8

end Sys2Proof.Machine
end

