-- ==== Sys2Proof/Machine/State.lean ====
section
/-! DEFINITION. The machine's state: exactly the seven items of `spec/10_state.md` rule R10, as plain data, the state
after reset (R23, `70_reset_and_hazards.md` R180), and the outcomes of a step that are no state. -/

namespace Sys2Proof.Machine

/-- The 256 cells (R21) as (address, byte) pairs: addresses strictly rising and below 256, no pair holding
`unlistedByte` (`Memory.wf` in Ops.lean). An unlisted address reads as `unlistedByte`. -/
abbrev Memory := List Host.Cell

/-- The kind tag of an `OutOfBoundsAccess` (R19, `60_exceptions.md` R154). -/
inductive BoundKind where
  | memoryAddress
  | registerIndex
  | stackPointer
  deriving DecidableEq, Repr

/-- A fault as the pseudocode raises it, `raise F(info)`, before the address `ia` is attached (R6, R19). -/
inductive Raise where
  | unknownOpcode (opcode : Byte)
  | unsupportedALUOperation (opcode : Byte)
  | divisionByZero
  | outOfBoundsAccess (kind : BoundKind) (value : Int)
  deriving DecidableEq, Repr

/-- `halt_reason` (R19): why the machine stopped; every fault carries the address `ia` of its instruction. -/
inductive HaltReason where
  /-- the machine has not stopped -/
  | none
  /-- stopped by HLT -/
  | halted
  /-- a byte with bit 5 clear that is no instruction -/
  | unknownOpcode (opcode : Byte) (address : PcWord)
  /-- a byte with bit 5 set that is no instruction -/
  | unsupportedALUOperation (opcode : Byte) (address : PcWord)
  /-- MOD with a divisor register that holds 0 -/
  | divisionByZero (address : PcWord)
  /-- an address, register index or stack pointer outside its range; `value` is the offending number, -1 for a push
  with the stack pointer at 0 -/
  | outOfBoundsAccess (kind : BoundKind) (value : Int) (address : PcWord)
  deriving DecidableEq, Repr

/-- The architectural state (R10). -/
structure State where
  /-- `mem`: the 256-byte memory (R21) -/
  mem : Memory
  /-- `x[0]` to `x[7]`: the general registers; `x[7]` is the stack pointer (R11, R13) -/
  regs : Vector Byte 8
  /-- `fl`: `0b00000LGE` (R14) -/
  fl : Byte
  /-- `pc`: the address of the next opcode byte (R16, R17) -/
  pc : PcWord
  /-- `running`: RUNNING or HALTED (R18) -/
  running : Bool
  /-- `halt_reason` (R19) -/
  haltReason : HaltReason
  /-- `out`: the values PRN has emitted, oldest first (R20) -/
  out : List Byte
  deriving DecidableEq, Repr

/-- The machine never stops with a fault of the MODEL: every fault of the spec is a next state that is HALTED with its
`halt_reason` recorded (`60_exceptions.md` R156: "an ordinary state transition of the machine"), and the spec leaves
no behaviour undefined (R170). So no constructor; log entry 3 (safe). -/
inductive Fault where
  deriving DecidableEq, Repr

/-- Outcomes that are neither a state nor a fault. -/
inductive Refusal where
  /-- Raised by `step` on a HALTED machine: there "a step function of a model returns 'no step' (not a fault, not a
  state)" (`40_engine.md` R70, decision D19). Safe; log entry 2. -/
  | halted
  /-- Raised by `load` on more than 256 bytes: the load is refused and the machine not started
  (`70_reset_and_hazards.md` R184, decision D18). Safe. -/
  | programTooLong
  /-- For an arm of `exec` whose instruction has no meaning yet; no arm raises it now. Safe. -/
  | notModelled (mnemonic : String)
  deriving DecidableEq, Repr

/-- The state after reset (R23, R180): every value is the spec's. -/
def State.reset : State where
  mem := []
  regs := #v[0, 0, 0, 0, 0, 0, 0, spReset]
  fl := flReset
  pc := pcReset
  running := true
  haltReason := .none
  out := []

end Sys2Proof.Machine
end

