-- ==== Sys2Proof/Machine/Ops.lean ====
section
/-! DEFINITION. The named operations over memory, registers and the run state (`spec/00_scope.md` rule R6), taking a
fault (`60_exceptions.md` R156), and the engine's part of a cycle (`40_engine.md` R73, R76, R77). There is no return
from a fault (R159). -/

namespace Sys2Proof.Machine

/-- A piece of pseudocode that may `raise` (R6): nothing after a raise executes. -/
abbrev Check (α : Type) := Except Raise α

/-- The outcome of a step of this machine. -/
abbrev Result := Host.Outcome State Fault Refusal

/-! ### Memory as a sorted list of cells -/

/-- The byte at an address of the list: an unlisted address holds `unlistedByte` (R21, R23). -/
def Memory.read : Memory → Nat → Byte
  | [], _ => unlistedByte
  | (a, v) :: m, x => if a = x then v else Memory.read m x

/-- The list without any pair at address `x`. -/
def Memory.erase (m : Memory) (x : Nat) : Memory := m.filter fun c => c.1 != x

/-- The list with the pair `(x, v)` put before the first larger address. -/
def Memory.insert : Memory → Nat → Byte → Memory
  | [], x, v => [(x, v)]
  | (a, w) :: m, x, v => if x < a then (x, v) :: (a, w) :: m else (a, w) :: Memory.insert m x v

/-- The one write of a cell; it keeps the canonical form, so writing `unlistedByte` removes the pair. -/
def Memory.write (m : Memory) (x : Nat) (v : Byte) : Memory :=
  if v = unlistedByte then Memory.erase m x else Memory.insert (Memory.erase m x) x v

/-- The canonical form: addresses strictly rising, inside the address space, and no pair that holds what an unlisted
address reads as. -/
abbrev Memory.wf (m : Memory) : Prop :=
  m.Pairwise (fun c d => c.1 < d.1) ∧ ∀ c ∈ m, c.1 < Config.memSize ∧ c.2 ≠ unlistedByte

/-! ### Reading and updating one item of the state -/

/-- `x[r]` (R6). -/
def State.reg (s : State) (r : RegIdx) : Byte := s.regs[r]

/-- `x[r] <- v` (R6). -/
def State.setReg (s : State) (r : RegIdx) (v : Byte) : State :=
  { s with regs := s.regs.set r v r.isLt }

/-- `pc <- target` (R6). -/
def State.setPc (s : State) (target : PcWord) : State := { s with pc := target }

/-- `fl <- v` (R6). -/
def State.setFlags (s : State) (v : Byte) : State := { s with fl := v }

/-- `mem[x] <- v` (R6), with no check: the checked write is `State.memWrite`. -/
def State.setByte (s : State) (x : Nat) (v : Byte) : State := { s with mem := Memory.write s.mem x v }

/-- `mem[x]` (R6), with no check: the checked read is `State.memRead`. -/
def State.byteAt (s : State) (x : Nat) : Byte := Memory.read s.mem x

/-- `out <- out ++ [v]` (R20, `42_system_data.md` R113). -/
def State.emit (s : State) (v : Byte) : State := { s with out := s.out ++ [v] }

/-- The transition RUNNING to HALTED (R18, R19, `40_engine.md` R70): the only writes of `running` and
`halt_reason`. -/
def State.stop (s : State) (why : HaltReason) : State := { s with running := false, haltReason := why }

/-! ### The bounds-checked accesses (`20_memory.md` R30 to R32) -/

/-- `MemRead(addr, 1)` (R31): the address is a natural number and is never reduced modulo 256. -/
def State.memRead (s : State) (addr : Nat) : Check Byte :=
  if addr < Config.memSize then .ok (s.byteAt addr)
  else .error (.outOfBoundsAccess .memoryAddress addr)

/-- `MemWrite(addr, 1, v)` (R32): the address is an integer. -/
def State.memWrite (s : State) (addr : Int) (v : Byte) : Check State :=
  if addr < 0 ∨ (Config.memSize : Int) ≤ addr then .error (.outOfBoundsAccess .memoryAddress addr)
  else .ok (s.setByte addr.toNat v)

/-! ### Taking a fault (`60_exceptions.md` R156) -/

/-- `F(info, ia)`: the recorded value of a fault raised by the instruction at `ia` (R19). -/
def Raise.at (f : Raise) (ia : PcWord) : HaltReason :=
  match f with
  | .unknownOpcode op => .unknownOpcode op ia
  | .unsupportedALUOperation op => .unsupportedALUOperation op ia
  | .divisionByZero => .divisionByZero ia
  | .outOfBoundsAccess k v => .outOfBoundsAccess k v ia

/-- `raise F(info)` in the cycle of the instruction at `pc` (R156): `running <- 0`, `halt_reason <- F(info, ia)`,
nothing else changes, and `pc` stays `ia`. -/
def State.raise (s : State) (f : Raise) : State := s.stop (f.at s.pc)

/-- The cause numbers of R155, for a host that wants one; nothing in the machine depends on them. -/
def HaltReason.code : HaltReason → Nat
  | .none => 0
  | .halted => 1
  | .unknownOpcode _ _ => 2
  | .unsupportedALUOperation _ _ => 3
  | .divisionByZero _ => 4
  | .outOfBoundsAccess _ _ _ => 5

/-! ### The engine's part of a cycle (`40_engine.md` R73, R76, R77) -/

/-- The read of operand byte `k` (1 or 2), `MemRead(ia + k, 1)`. The VALUE is the one the decoder has put into the
instruction; here only the bound check can matter (log entry 1). -/
def State.operandRead (s : State) (k : Nat) : Check Unit :=
  match s.memRead (s.pc.toNat + k) with
  | .ok _ => .ok ()
  | .error f => .error f

/-- The ALU path's two operand reads (R73): made for EVERY opcode byte with bit 5 set, whatever its count; the
first that is out of range ends the cycle. -/
def State.engineReads (s : State) (ir : Byte) : Check Unit :=
  if opIsAlu ir then do
    s.operandRead 1
    s.operandRead 2
  else .ok ()

/-- The default advance (R76): `pc <- ia + 1 + count` unless the opcode byte has the sets-PC bit. -/
def State.engineAdvance (s : State) (ir : Byte) : State :=
  if opSetsPc ir then s else s.setPc (s.pc + BitVec.ofNat 9 (1 + opCount ir))

/-- The cycle of a defined opcode after its fetch (R77): the ALU path's reads, the handler, the default advance; any
raise takes the fault in the state the instruction started from (R156, R157). -/
def State.cycle (s : State) (m : Mnemonic) (handler : Check State) : Result :=
  match s.engineReads (opcodeOf m) with
  | .error f => .next (s.raise f)
  | .ok _ =>
    match handler with
    | .error f => .next (s.raise f)
    | .ok t => .next (t.engineAdvance (opcodeOf m))

/-- The cycle of an undefined opcode byte (R75, R77; `30_encoding.md` R58): UnknownOpcode at once, or
UnsupportedALUOperation after the ALU path's reads, which may raise first (`60_exceptions.md` R152, R158). -/
def State.rejectOpcode (s : State) (e : DecodeError) : State :=
  match e with
  | .unknownOpcode ir => s.raise (.unknownOpcode ir)
  | .unsupportedALUOperation ir =>
    match s.engineReads ir with
    | .error f => s.raise f
    | .ok _ => s.raise (.unsupportedALUOperation ir)

/-! ### Placing bytes in memory -/

/-- The bytes `bs` written at `base`, `base + 1`, ...; a byte beyond the memory is not placed. -/
def State.storeBytes (s : State) (base : Nat) : List Byte → State
  | [] => s
  | b :: bs =>
    State.storeBytes (if base < Config.memSize then s.setByte base b else s) (base + 1) bs

end Sys2Proof.Machine
end

