-- ==== Sys2Proof/Machine/Flags.lean ====
section
/-! DEFINITION. The flags register (`spec/10_state.md` rules R14, R15) and the one computation that writes it
(`41_alu.md` R100). -/

namespace Sys2Proof.Machine

/-- The flags byte with the bit at `pos` set and every other bit 0. -/
def flagOnly (pos : Nat) : Byte := BitVec.ofNat 8 (2 ^ pos)

/-- What CMP writes: the comparison is unsigned, one of E, G, L is 1 and every other bit is 0 (R100; the direction of G
and L is the spec's decision D6, log entry 6). -/
def compareFlags (va vb : Byte) : Byte :=
  if va.toNat = vb.toNat then flagOnly flE
  else if vb.toNat < va.toNat then flagOnly flG
  else flagOnly flL

/-- The E bit, the only flag any instruction reads (R15). -/
def State.equalFlag (s : State) : Bool := s.fl.getLsbD flE

end Sys2Proof.Machine
end

