-- ==== Sys2Proof/Machine/Operands.lean ====
section
/-! DEFINITION. Operand forms: the register-index check (`spec/10_state.md` rule R12), the operand reads of the non-ALU
handlers (`42_system_data.md` R110), and the stack forms with their checked pointer steps (`43_stack.md` R120). -/

namespace Sys2Proof.Machine

/-- `RegIndex(b)` (R6, R12): the whole byte must be 0..7; it is neither masked nor wrapped. -/
def regIndex (b : Byte) : Check RegIdx :=
  if h : b.toNat < Config.nReg then .ok ⟨b.toNat, h⟩
  else .error (.outOfBoundsAccess .registerIndex b.toNat)

/-- A non-ALU handler's own operand reads (R74, R110), first operand first. -/
def State.handlerReads (s : State) : Nat → Check Unit
  | 0 => .ok ()
  | n + 1 => do
    State.handlerReads s n
    s.operandRead (n + 1)

/-- A register value as a target of `pc`: zero-extended to 9 bits (`44_control_flow.md` R130). -/
def targetOf (v : Byte) : PcWord := v.setWidth 9

/-- The stack pointer `x[7]` (R13). -/
def State.sp (s : State) : Byte := s.reg spIndex

/-- `sp - 1` for a push, which must be an address (R120, R121; the spec's decision D11). -/
def spDown (sp : Byte) : Check Byte :=
  if sp.toNat = 0 then .error (.outOfBoundsAccess .stackPointer ((sp.toNat : Int) - 1))
  else .ok (BitVec.ofNat 8 (sp.toNat - 1))

/-- `v + 1` for a pop's new pointer, which must be an address (R120, R123; the spec's decision D12). -/
def spUp (v : Byte) : Check Byte :=
  if Config.memSize ≤ v.toNat + 1 then .error (.outOfBoundsAccess .stackPointer (v.toNat + 1))
  else .ok (BitVec.ofNat 8 (v.toNat + 1))

/-- `x[r]` read after `x[7] <- nsp` (R121, R131: the pointer is decremented first, then the register is read). -/
def State.regAfterSp (s : State) (nsp : Byte) (r : RegIdx) : Byte :=
  if r = spIndex then nsp else s.reg r

/-- The writes of a push: `x[7] <- nsp`, then `MemWrite(nsp, 1, v)` (R121). -/
def State.pushByte (s : State) (nsp v : Byte) : Check State :=
  (s.setReg spIndex nsp).memWrite nsp.toNat v

end Sys2Proof.Machine
end

