-- ==== Sys2Proof/Machine/Alu.lean ====
section
/-! DEFINITION. The ALU (`spec/41_alu.md`): ADD, MUL, MOD, AND, OR, XOR, NOT, SHL, SHR, CMP. Values are unsigned; a
result is the exact natural number reduced modulo 256 (R101). -/

namespace Sys2Proof.Machine

/-- The low 8 bits of an exact natural number: `(e) mod 256` (R6, R101). -/
def low8 (e : Nat) : Byte := BitVec.ofNat 8 e

/-- `ALU_binary` (R90): both indices are checked, `a` first, and both sources are read before the write. The
operation may raise its own fault. -/
def State.aluBinary (s : State) (m : Mnemonic) (f : Nat → Nat → Check Nat) (a b : Byte) : Result :=
  s.cycle m do
    let ra ← regIndex a
    let rb ← regIndex b
    let v ← f (s.reg ra).toNat (s.reg rb).toNat
    .ok (s.setReg ra (low8 v))

/-- ADD Ra,Rb (R91). -/
def execAdd (a b : Byte) (s : State) : Result :=
  s.aluBinary .add (fun va vb => .ok (va + vb)) a b

/-- MUL Ra,Rb (R92): only the low 8 bits of the product are kept. -/
def execMul (a b : Byte) (s : State) : Result :=
  s.aluBinary .mul (fun va vb => .ok (va * vb)) a b

/-- MOD Ra,Rb (R93): a zero divisor raises DivisionByZero after both indices were found valid. -/
def execMod (a b : Byte) (s : State) : Result :=
  s.aluBinary .mod (fun va vb => if vb = 0 then .error .divisionByZero else .ok (va % vb)) a b

/-- AND Ra,Rb (R94). -/
def execAnd (a b : Byte) (s : State) : Result :=
  s.aluBinary .and (fun va vb => .ok (va &&& vb)) a b

/-- OR Ra,Rb (R95). -/
def execOr (a b : Byte) (s : State) : Result :=
  s.aluBinary .or (fun va vb => .ok (va ||| vb)) a b

/-- XOR Ra,Rb (R96). -/
def execXor (a b : Byte) (s : State) : Result :=
  s.aluBinary .xor (fun va vb => .ok (va ^^^ vb)) a b

/-- SHL Ra,Rb (R98): the shift amount is the whole byte (the spec's decision D20). -/
def execShl (a b : Byte) (s : State) : Result :=
  s.aluBinary .shl (fun va vb => .ok (va * 2 ^ vb)) a b

/-- SHR Ra,Rb (R99): logical, and the shift amount is the whole byte (the spec's decisions D6, D20). -/
def execShr (a b : Byte) (s : State) : Result :=
  s.aluBinary .shr (fun va vb => .ok (va / 2 ^ vb)) a b

/-- NOT Ra (R97): the engine reads the byte at `ia + 2` too, which is never used and never checked as an index. -/
def execNot (a : Byte) (s : State) : Result :=
  s.cycle .not do
    let ra ← regIndex a
    .ok (s.setReg ra (low8 (255 - (s.reg ra).toNat)))

/-- CMP Ra,Rb (R100): writes all of `fl` and nothing else. -/
def execCmp (a b : Byte) (s : State) : Result :=
  s.cycle .cmp do
    let ra ← regIndex a
    let rb ← regIndex b
    .ok (s.setFlags (compareFlags (s.reg ra) (s.reg rb)))

end Sys2Proof.Machine
end

