-- ==== Sys2Proof/Machine/Control.lean ====
section
/-! DEFINITION. CALL, RET, JMP, JEQ, JNE (`spec/44_control_flow.md`). Each has the sets-PC bit and writes `pc` itself on
every path that does not fault (R130). -/

namespace Sys2Proof.Machine

/-- `ia + 2`, CALL's return address, which must be an address (R131; the spec's decision D13). -/
def returnAddress (ia : PcWord) : Check Byte :=
  if ia.toNat + 2 < Config.memSize then .ok (BitVec.ofNat 8 (ia.toNat + 2))
  else .error (.outOfBoundsAccess .memoryAddress (ia.toNat + 2))

/-- CALL Rr (R131): the return-address check comes before the stack-pointer check; `CALL R7` jumps to the decremented
pointer (the spec's decision D21). -/
def execCall (r : Byte) (s : State) : Result :=
  s.cycle .call do
    s.handlerReads 1
    let rr ← regIndex r
    let ret ← returnAddress s.pc
    let nsp ← spDown s.sp
    let t ← s.pushByte nsp ret
    .ok (t.setPc (targetOf (s.regAfterSp nsp rr)))

/-- RET (R132). -/
def execRet (s : State) : Result :=
  s.cycle .ret do
    let v ← s.memRead s.sp.toNat
    let nsp ← spUp s.sp
    .ok ((s.setReg spIndex nsp).setPc (targetOf v))

/-- The taken path of a jump: read the operand, check it, `pc <- x[r]` (R133 to R135). -/
def State.jumpTo (s : State) (r : Byte) : Check State := do
  s.handlerReads 1
  let rr ← regIndex r
  .ok (s.setPc (targetOf (s.reg rr)))

/-- The not-taken path of a conditional jump: `pc <- ia + 2`; the operand byte is neither read nor checked (R134,
R135; the spec's decision D14). -/
def State.skipJump (s : State) : Check State :=
  .ok (s.setPc (s.pc + 2))

/-- JMP Rr (R133). -/
def execJmp (r : Byte) (s : State) : Result :=
  s.cycle .jmp (s.jumpTo r)

/-- JEQ Rr (R134): taken when E is 1. -/
def execJeq (r : Byte) (s : State) : Result :=
  s.cycle .jeq (if s.equalFlag then s.jumpTo r else s.skipJump)

/-- JNE Rr (R135): taken when E is 0. -/
def execJne (r : Byte) (s : State) : Result :=
  s.cycle .jne (if s.equalFlag then s.skipJump else s.jumpTo r)

end Sys2Proof.Machine
end

