-- ==== Sys2Proof/Machine/Stack.lean ====
section
/-! DEFINITION. PUSH and POP (`spec/43_stack.md`). -/

namespace Sys2Proof.Machine

/-- PUSH Rr (R121): `PUSH R7` stores the decremented pointer (the spec's decision D21). -/
def execPush (r : Byte) (s : State) : Result :=
  s.cycle .push do
    s.handlerReads 1
    let rr ← regIndex r
    let nsp ← spDown s.sp
    s.pushByte nsp (s.regAfterSp nsp rr)

/-- POP Rr (R123): `POP R7` increments the value it has loaded (the spec's decision D21). -/
def execPop (r : Byte) (s : State) : Result :=
  s.cycle .pop do
    s.handlerReads 1
    let rr ← regIndex r
    let v ← s.memRead s.sp.toNat
    let nsp ← spUp (if rr = spIndex then v else s.sp)
    .ok ((if rr = spIndex then s else s.setReg rr v).setReg spIndex nsp)

end Sys2Proof.Machine
end

