-- ==== Sys2Proof/Machine/SystemData.lean ====
section
/-! DEFINITION. HLT, LDI, PRN, ST (`spec/42_system_data.md`). Order of a handler (R110): its operand reads, its index
checks, its own checks, its writes. -/

namespace Sys2Proof.Machine

/-- HLT (R111): the clean stop; the engine still advances `pc` past it. -/
def execHlt (s : State) : Result :=
  s.cycle .hlt (.ok (s.stop .halted))

/-- LDI Rr,imm (R112): the immediate is the raw byte. -/
def execLdi (r imm : Byte) (s : State) : Result :=
  s.cycle .ldi do
    s.handlerReads 2
    let rr ← regIndex r
    .ok (s.setReg rr imm)

/-- PRN Rr (R113): appends the register's value to the output. -/
def execPrn (r : Byte) (s : State) : Result :=
  s.cycle .prn do
    s.handlerReads 1
    let rr ← regIndex r
    .ok (s.emit (s.reg rr))

/-- ST Ra,Rb (R114): the first register holds the address, the second the data. -/
def execSt (a b : Byte) (s : State) : Result :=
  s.cycle .st do
    s.handlerReads 2
    let ra ← regIndex a
    let rb ← regIndex b
    s.memWrite (s.reg ra).toNat (s.reg rb)

end Sys2Proof.Machine
end

