-- ==== Sys2Proof/Machine/Fetch.lean ====
section
/-! DEFINITION. The front of a cycle: the test of `running`, the opcode fetch and the decode (`spec/40_engine.md` rules
R70, R71, R72, R75). -/

namespace Sys2Proof.Machine

/-- What the front of a cycle leads to. -/
inductive Fetched where
  /-- the machine is HALTED: there is no cycle (R70) -/
  | noCycle
  /-- the cycle has ended in a fault, taken (R71, R75) -/
  | stopped (t : State)
  /-- an instruction to execute -/
  | instruction (i : Instr)
  deriving DecidableEq, Repr

/-- The bytes at `pc`, `pc + 1`, `pc + 2`. A byte beyond address 255 does not exist and counts as 0 here: the meaning's
own operand read raises before such a byte is used (DESIGN CHOICE, safe, log entry 1). -/
def State.window (s : State) : List Byte :=
  [s.byteAt s.pc.toNat,
   if s.pc.toNat + 1 < Config.memSize then s.byteAt (s.pc.toNat + 1) else 0,
   if s.pc.toNat + 2 < Config.memSize then s.byteAt (s.pc.toNat + 2) else 0]

/-- Fetch and decode at `pc` (R71, R72, R75). -/
def State.fetch (s : State) : Fetched :=
  if s.running then
    match s.memRead s.pc.toNat with
    | .error f => .stopped (s.raise f)
    | .ok _ =>
      match decodeBytes s.window with
      | .ok i => .instruction i
      | .error e => .stopped (s.rejectOpcode e)
  else .noCycle

end Sys2Proof.Machine
end

