-- ==== Sys2Proof/Machine/Step.lean ====
section
/-! DEFINITION. One cycle of the engine (`spec/40_engine.md` rule R77). -/

namespace Sys2Proof.Machine

/-- One cycle (R77): a HALTED machine has none (R70), which is the refusal `halted`, not a fault and not a state. -/
def step (s : State) : Host.Outcome State Fault Refusal :=
  match s.fetch with
  | .noCycle => .refused .halted
  | .stopped t => .next t
  | .instruction i => exec i s

/-- `s` with the bytes of the table word `w` of `nbits` bits stored at `pc`, where `step` fetches its next
instruction. Nothing else changes: on a RUNNING state with `pc` at most 253 the next step runs exactly that
instruction. -/
def State.withFetchWord (s : State) (nbits w : Nat) : State :=
  s.storeBytes s.pc.toNat (tableBytes nbits w)

end Sys2Proof.Machine
end

