-- ==== Sys2Proof/Machine/Boundary.lean ====
section
/-! DEFINITION. What the host does at the machine's boundary beside asking for cycles (`spec/70_reset_and_hazards.md`
rules R184, R187, R188): the load and the reading of the output. -/

namespace Sys2Proof.Machine

/-- Reset, then the load of a program (R184): byte `i` at address `LOAD_BASE + i`, every other cell and every other
item as reset left it. A program of more than 256 bytes is refused and the machine not started (decision D18). It
starts from reset, because a load happens once, before the first cycle. -/
def load (program : List Byte) : Result :=
  if program.length ≤ Config.memSize then .next (State.reset.storeBytes loadBase program)
  else .refused .programTooLong

/-- The output as the host shows it, one unsigned decimal numeral per value (R20); the separator is the host's. -/
def State.outputText (s : State) : List String := s.out.map fun v => toString v.toNat

end Sys2Proof.Machine
end

