-- ==== Sys2Proof/Machine/Run.lean ====
section
/-! DEFINITION. Running (`spec/40_engine.md` rule R78): `Run` is `while running = 1: Step()`, here under fuel, as the rule
has an executor of the model do; and from it the states a run reaches, the end of a run (`70_reset_and_hazards.md` R189),
and the runs without one. -/

namespace Sys2Proof.Machine

/-- `Run` with fuel for at most `n` cycles (R78): `while running = 1: Step()`. A HALTED machine stays as it is (R70), so
the state after the last cycle is there to inspect (R187). -/
def run : Nat → State → State
  | 0, s => s
  | n + 1, s =>
    if s.running then
      match step s with
      | .next t => run n t
      | .fault f => nomatch f
      | .refused _ => s
    else s

/-- `t` is a state of the run that starts in `s`: some number of cycles leads from `s` to it. -/
def State.Reaches (s t : State) : Prop := ∃ n, run n s = t

/-- The run that starts in `s` is over in the final state `t` (R189). -/
def State.RunEnds (s t : State) : Prop := s.Reaches t ∧ t.running = false

/-- The run that starts in `s` has no end and no final state (R78, R189). -/
def State.RunsForever (s : State) : Prop := ∀ t, s.Reaches t → t.running = true

/-- `t` is a state of a run of the machine: reset, an accepted load, then cycles (R184, R186). -/
def State.Reachable (t : State) : Prop := ∃ program s, load program = .next s ∧ s.Reaches t

end Sys2Proof.Machine
end

