-- ==== Sys2Proof/Safety.lean ====
section
/-! DEFINITION. What claims about runs use beside `Machine/Run.lean`, which has the states a run reaches: how a run has
ended (`spec/70_reset_and_hazards.md` rule R189), and the invariant of the machine. -/

namespace Sys2Proof.Machine

/-- The four faults (R150), as values of `halt_reason`. -/
def HaltReason.isFault : HaltReason → Bool
  | .none | .halted => false
  | .unknownOpcode _ _ | .unsupportedALUOperation _ _ | .divisionByZero _ | .outOfBoundsAccess _ _ _ => true

/-- The run is over and ended cleanly (R189). -/
def State.endedCleanly (s : State) : Bool := !s.running && s.haltReason == .halted

/-- The run is over and ended by a fault (R189). -/
def State.endedByFault (s : State) : Bool := !s.running && s.haltReason.isFault

/-- What holds of the machine at reset and after every cycle: memory is in canonical form; at most one flag bit is set
and bits 7:3 of `fl` are 0 (R14, R15); `pc` is 0..257 (R17); RUNNING exactly when nothing has been recorded (R19). -/
structure State.Inv (s : State) : Prop where
  memory : Memory.wf s.mem
  flags : s.fl = 0 ∨ s.fl = flagOnly flE ∨ s.fl = flagOnly flG ∨ s.fl = flagOnly flL
  counter : s.pc.toNat ≤ 257
  stopped : s.running = true ↔ s.haltReason = .none

end Sys2Proof.Machine
end

