-- ==== Sys2Proof/Certificates/Slice0/Obligations.lean ====
section
/-! DEFINITION. The statements for the provers. Each says what the numbered rules of spec/ say an instruction or the
machine does; OBLIGATIONS.json gives each its rules. Wherever a statement names an opcode byte, the byte's low nibble
(and CMP's bit 5, NOT's count) is the spec's own decision D5, D7 from general knowledge (R54, R55; log entry 4). The
order of checks inside one instruction is the spec's own decision D15, and that a fault changes nothing but the run
state is D9, D10 (R157). The words used in several statements are defined first, in terms of the state's fields. -/

namespace Sys2Proof.Claims

open Sys2Proof.Machine

/-- `s` HALTED with `why` recorded and nothing else changed (`60_exceptions.md` R156). -/
def haltedWith (s : State) (why : HaltReason) : State := { s with running := false, haltReason := why }

/-- `s` after OutOfBoundsAccess(MemoryAddress, v) by the instruction at `pc`. -/
def addressFault (s : State) (v : Int) : State := haltedWith s (.outOfBoundsAccess .memoryAddress v s.pc)

/-- `s` after OutOfBoundsAccess(RegisterIndex, b) by the instruction at `pc`. -/
def indexFault (s : State) (b : Byte) : State := haltedWith s (.outOfBoundsAccess .registerIndex b.toNat s.pc)

/-- `s` after OutOfBoundsAccess(StackPointer, v) by the instruction at `pc`. -/
def stackFault (s : State) (v : Int) : State := haltedWith s (.outOfBoundsAccess .stackPointer v s.pc)

/-- What every three-byte instruction with two register operands does on its faulting operands: a byte of it beyond
address 255, or a register-index byte above 7, the first operand's before the second's. -/
def TwoRegisterFaults (mk : Byte → Byte → Instr) : Prop :=
  ∀ (s : State) (a b : Byte),
    (254 ≤ s.pc.toNat → s.pc.toNat ≤ 255 → exec (mk a b) s = .next (addressFault s 256)) ∧
    (s.pc.toNat ≤ 253 → 8 ≤ a.toNat → exec (mk a b) s = .next (indexFault s a)) ∧
    (s.pc.toNat ≤ 253 → a.toNat < 8 → 8 ≤ b.toNat → exec (mk a b) s = .next (indexFault s b))

/-- What every two-byte non-ALU instruction with one register operand that it reads does on its faulting operands. -/
def OneRegisterFaults (mk : Byte → Instr) (s : State) : Prop :=
  ∀ r : Byte,
    (s.pc.toNat = 255 → exec (mk r) s = .next (addressFault s 256)) ∧
    (s.pc.toNat ≤ 254 → 8 ≤ r.toNat → exec (mk r) s = .next (indexFault s r))

/-- The whole rule of a binary ALU instruction without a fault of its own: its encoding, its completed effect (the
result reduced modulo 256 in the first register, `pc` three on, nothing else changed), and its faults. -/
def BinaryAluRule (mk : Byte → Byte → Instr) (opcode : Byte) (f : Nat → Nat → Nat) : Prop :=
  (∀ a b : Byte, encode (mk a b) = [opcode, a, b]) ∧
  (∀ (s : State) (a b : Byte) (ra rb : RegIdx), s.pc.toNat ≤ 253 → a.toNat = ra.val → b.toNat = rb.val →
    exec (mk a b) s = .next { s with
      regs := s.regs.set ra (BitVec.ofNat 8 (f s.regs[ra].toNat s.regs[rb].toNat % 256)), pc := s.pc + 3 }) ∧
  TwoRegisterFaults mk

/-- The run state after an instruction that completes is as before; an instruction that faults changes the run state
and nothing else. -/
def RunStateFrame (s t : State) : Prop :=
  (t.running = s.running ∧ t.haltReason = s.haltReason) ∨ ∃ why, why.isFault = true ∧ t = haltedWith s why

/-- Every byte of memory reads as before. -/
def SameBytes (s t : State) : Prop := ∀ x : Nat, t.byteAt x = s.byteAt x

/-- The flag byte in which CMP sets only the bit of the outcome it found. -/
def outcomeFlags (va vb : Nat) : Byte := if va = vb then 0b001#8 else if va > vb then 0b010#8 else 0b100#8

/-- The operand bytes that an instruction uses as register indices in the state `s` (R12): NOT's second byte is none of
them, nor the operand byte of a JEQ or JNE that is not taken. -/
def usedIndexBytes (i : Instr) (s : State) : List Byte :=
  match i with
  | .add a b | .mul a b | .mod a b | .cmp a b | .and a b | .or a b | .xor a b | .shl a b | .shr a b | .st a b => [a, b]
  | .not a => [a]
  | .ldi r _ => [r]
  | .push r | .pop r | .prn r | .call r | .jmp r => [r]
  | .jeq r => if s.fl.getLsbD 0 then [r] else []
  | .jne r => if s.fl.getLsbD 0 then [] else [r]
  | .hlt | .ret => []

/-- Every operand byte that the instruction at `pc` reads lies in memory: all three addresses on the ALU path (R73), its
own bytes otherwise. -/
def operandsInMemory (i : Instr) (s : State) : Prop :=
  s.pc.toNat + (if (opcodeOf i.mnemonic).getLsbD 5 then 3 else (encode i).length) ≤ 256

/-- Two states that agree on everything but `fl`, and agree on its E bit. -/
def AgreeButGL (s s' : State) : Prop := s' = { s with fl := s'.fl } ∧ s'.fl.getLsbD 0 = s.fl.getLsbD 0

end Sys2Proof.Claims

open Sys2Proof Sys2Proof.Machine Sys2Proof.Claims

/-! ### The ALU (`41_alu.md`) -/

/-- R91: ADD writes the sum modulo 256; encoding, faults and everything it leaves unchanged. -/
def Obligations.AddRule : Prop := BinaryAluRule .add 0xA0 fun va vb => va + vb

/-- R92: MUL writes the low 8 bits of the product. -/
def Obligations.MulRule : Prop := BinaryAluRule .mul 0xA2 fun va vb => va * vb

/-- R93: MOD writes the remainder, which is smaller than the divisor; a zero divisor raises DivisionByZero, after the
index checks, with the destination, `pc` and everything but the run state unchanged. -/
def Obligations.ModRule : Prop :=
  (∀ a b : Byte, encode (.mod a b) = [0xA4, a, b]) ∧
  (∀ (s : State) (a b : Byte) (ra rb : RegIdx), s.pc.toNat ≤ 253 → a.toNat = ra.val → b.toNat = rb.val →
    s.regs[rb] ≠ 0 →
    ∃ v : Byte, v.toNat = s.regs[ra].toNat % s.regs[rb].toNat ∧ v.toNat < s.regs[rb].toNat ∧
      exec (.mod a b) s = .next { s with regs := s.regs.set ra v, pc := s.pc + 3 }) ∧
  (∀ (s : State) (a b : Byte) (ra rb : RegIdx), s.pc.toNat ≤ 253 → a.toNat = ra.val → b.toNat = rb.val →
    s.regs[rb] = 0 → exec (.mod a b) s = .next (haltedWith s (.divisionByZero s.pc))) ∧
  TwoRegisterFaults .mod

/-- R94: AND is the bitwise and. -/
def Obligations.AndRule : Prop := BinaryAluRule .and 0xA8 fun va vb => va &&& vb

/-- R95: OR is the bitwise or. -/
def Obligations.OrRule : Prop := BinaryAluRule .or 0xAA fun va vb => va ||| vb

/-- R96: XOR is the bitwise exclusive or. -/
def Obligations.XorRule : Prop := BinaryAluRule .xor 0xAB fun va vb => va ^^^ vb

/-- SHL by the whole byte of the second register: an amount of 8 or more gives 0. The whole amount is the spec's own
decision D20 (R98 marks it so), not a statement of the source. -/
def Obligations.ShlRule : Prop :=
  BinaryAluRule .shl 0xAC (fun va vb => va <<< vb) ∧
  ∀ (s t : State) (a b : Byte) (ra rb : RegIdx), s.pc.toNat ≤ 253 → a.toNat = ra.val → b.toNat = rb.val →
    8 ≤ s.regs[rb].toNat → exec (.shl a b) s = .next t → t.regs[ra] = 0

/-- SHR, logical, by the whole byte of the second register. Logical and the whole amount are the spec's own decisions
D6 and D20 (R99 marks them so). -/
def Obligations.ShrRule : Prop :=
  BinaryAluRule .shr 0xAD (fun va vb => va >>> vb) ∧
  ∀ (s t : State) (a b : Byte) (ra rb : RegIdx), s.pc.toNat ≤ 253 → a.toNat = ra.val → b.toNat = rb.val →
    8 ≤ s.regs[rb].toNat → exec (.shr a b) s = .next t → t.regs[ra] = 0

/-- NOT complements its register and advances `pc` by 2; at address 254 it faults on the byte after its own two. That
the engine reads that byte and never checks it is the spec's own decision D8 (R97 and `90_conflicts.md` C3). -/
def Obligations.NotRule : Prop :=
  (∀ a : Byte, encode (.not a) = [0x69, a]) ∧
  (∀ (s : State) (a : Byte) (ra : RegIdx), s.pc.toNat ≤ 253 → a.toNat = ra.val →
    exec (.not a) s = .next { s with regs := s.regs.set ra (~~~ s.regs[ra]), pc := s.pc + 2 }) ∧
  (∀ (s : State) (a : Byte), 254 ≤ s.pc.toNat → s.pc.toNat ≤ 255 →
    exec (.not a) s = .next (addressFault s 256)) ∧
  (∀ (s : State) (a : Byte), s.pc.toNat ≤ 253 → 8 ≤ a.toNat → exec (.not a) s = .next (indexFault s a)) ∧
  (∀ b1 b2 b2' : Byte, decode 0x69 b1 b2 = decode 0x69 b1 b2')

/-- CMP writes the whole of `fl` from an unsigned comparison and writes nothing else but `pc`. The bit positions and the
direction of G and L are the spec's own decisions D4 and D6 (R14 and R100 mark them so). -/
def Obligations.CmpRule : Prop :=
  (∀ a b : Byte, encode (.cmp a b) = [0xA7, a, b]) ∧
  (∀ (s : State) (a b : Byte) (ra rb : RegIdx), s.pc.toNat ≤ 253 → a.toNat = ra.val → b.toNat = rb.val →
    exec (.cmp a b) s = .next { s with fl := outcomeFlags s.regs[ra].toNat s.regs[rb].toNat, pc := s.pc + 3 }) ∧
  TwoRegisterFaults .cmp

/-- D0 §8 as R100 quotes it: after a CMP that completes, JEQ goes to its target iff the two registers were equal and
JNE iff they were not; the path not taken advances `pc` by exactly 2. -/
def Obligations.CompareThenJump : Prop :=
  ∀ (s t : State) (a b r : Byte) (ra rb rr : RegIdx), a.toNat = ra.val → b.toNat = rb.val → r.toNat = rr.val →
    s.pc.toNat ≤ 251 → exec (.cmp a b) s = .next t →
    exec (.jeq r) t = .next { t with
      pc := if s.regs[ra] = s.regs[rb] then s.regs[rr].setWidth 9 else s.pc + 5 } ∧
    exec (.jne r) t = .next { t with
      pc := if s.regs[ra] = s.regs[rb] then s.pc + 5 else s.regs[rr].setWidth 9 }

/-! ### HLT, LDI, PRN, ST (`42_system_data.md`) -/

/-- R111: HLT clears `running`, records Halted, leaves `pc` one past itself and changes nothing else, wherever it
stands; no other instruction records Halted. -/
def Obligations.HltRule : Prop :=
  encode .hlt = [0x01] ∧
  (∀ s : State, exec .hlt s = .next { s with running := false, haltReason := .halted, pc := s.pc + 1 }) ∧
  (∀ (i : Instr) (s t : State), s.haltReason ≠ .halted → exec i s = .next t → t.haltReason = .halted → i = .hlt)

/-- R112: LDI loads the raw immediate byte into any register, R7 included. -/
def Obligations.LdiRule : Prop :=
  (∀ r imm : Byte, encode (.ldi r imm) = [0x82, r, imm]) ∧
  (∀ (s : State) (r imm : Byte) (rr : RegIdx), s.pc.toNat ≤ 253 → r.toNat = rr.val →
    exec (.ldi r imm) s = .next { s with regs := s.regs.set rr imm, pc := s.pc + 3 }) ∧
  (∀ (s : State) (r imm : Byte), 254 ≤ s.pc.toNat → s.pc.toNat ≤ 255 →
    exec (.ldi r imm) s = .next (addressFault s 256)) ∧
  (∀ (s : State) (r imm : Byte), s.pc.toNat ≤ 253 → 8 ≤ r.toNat → exec (.ldi r imm) s = .next (indexFault s r))

/-- PRN appends the register's value to the output. That the output is a sequence in the state and that the sink never
refuses is the spec's own decision D17 (R113 marks it so). -/
def Obligations.PrnRule : Prop :=
  (∀ r : Byte, encode (.prn r) = [0x47, r]) ∧
  (∀ (s : State) (r : Byte) (rr : RegIdx), s.pc.toNat ≤ 254 → r.toNat = rr.val →
    exec (.prn r) s = .next { s with out := s.out ++ [s.regs[rr]], pc := s.pc + 2 }) ∧
  ∀ s : State, OneRegisterFaults .prn s

/-- R114: ST writes the second register's value at the address in the first, and no other byte. -/
def Obligations.StRule : Prop :=
  (∀ a b : Byte, encode (.st a b) = [0x84, a, b]) ∧
  (∀ (s : State) (a b : Byte) (ra rb : RegIdx), s.pc.toNat ≤ 253 → a.toNat = ra.val → b.toNat = rb.val →
    ∃ t : State, exec (.st a b) s = .next t ∧ t = { s with mem := t.mem, pc := s.pc + 3 } ∧
      t.byteAt s.regs[ra].toNat = s.regs[rb] ∧
      ∀ x : Nat, x ≠ s.regs[ra].toNat → t.byteAt x = s.byteAt x) ∧
  TwoRegisterFaults .st

/-! ### The stack (`43_stack.md`) and control transfer (`44_control_flow.md`) -/

/-- PUSH: the pointer goes down by one and the value is stored at the new top; PUSH R7 stores the decremented pointer. A
pointer of 0 faults. The R7 case and the fault are the spec's own decisions D21 and D11 (`43_stack.md`). -/
def Obligations.PushRule : Prop :=
  (∀ r : Byte, encode (.push r) = [0x45, r]) ∧
  (∀ (s : State) (r : Byte) (rr : RegIdx), s.pc.toNat ≤ 254 → r.toNat = rr.val → s.regs[7] ≠ 0 →
    ∃ t : State, exec (.push r) s = .next t ∧
      t = { s with mem := t.mem, regs := s.regs.set 7 (s.regs[7] - 1), pc := s.pc + 2 } ∧
      t.byteAt (s.regs[7] - 1).toNat = (if rr = 7 then s.regs[7] - 1 else s.regs[rr]) ∧
      ∀ x : Nat, x ≠ (s.regs[7] - 1).toNat → t.byteAt x = s.byteAt x) ∧
  (∀ (s : State) (r : Byte), s.pc.toNat ≤ 254 → r.toNat < 8 → s.regs[7] = 0 →
    exec (.push r) s = .next (stackFault s (-1))) ∧
  ∀ s : State, OneRegisterFaults .push s

/-- POP to a register other than R7: the byte at the pointer, and the pointer goes up by one; a pointer of 255 faults and
the register is not written (the fault is the spec's own decision D12). -/
def Obligations.PopRule : Prop :=
  (∀ r : Byte, encode (.pop r) = [0x46, r]) ∧
  (∀ (s : State) (r : Byte) (rr : RegIdx), s.pc.toNat ≤ 254 → r.toNat = rr.val → rr ≠ 7 → s.regs[7] ≠ 255 →
    exec (.pop r) s = .next { s with
      regs := (s.regs.set rr (s.byteAt s.regs[7].toNat)).set 7 (s.regs[7] + 1), pc := s.pc + 2 }) ∧
  (∀ (s : State) (r : Byte), s.pc.toNat ≤ 254 → r.toNat < 7 → s.regs[7] = 255 →
    exec (.pop r) s = .next (stackFault s 256)) ∧
  ∀ s : State, OneRegisterFaults .pop s

/-- POP R7 loads the pointer from the stack and then increments it, and faults when the loaded byte, not the pointer, is
255: the spec's own decisions D21 and D12 (R123). -/
def Obligations.PopStackPointerRule : Prop :=
  (∀ s : State, s.pc.toNat ≤ 254 → s.byteAt s.regs[7].toNat ≠ 255 →
    exec (.pop 7) s = .next { s with regs := s.regs.set 7 (s.byteAt s.regs[7].toNat + 1), pc := s.pc + 2 }) ∧
  (∀ s : State, s.pc.toNat ≤ 254 → s.byteAt s.regs[7].toNat = 255 →
    exec (.pop 7) s = .next (stackFault s 256))

/-- CALL pushes `ia + 2` and goes to its register's value; CALL R7 goes to the decremented pointer. It faults at address
254 before it looks at the pointer. Those faults, their order and the R7 case are the spec's own decisions D13, D11,
D15 and D21 (R131). -/
def Obligations.CallRule : Prop :=
  (∀ r : Byte, encode (.call r) = [0x50, r]) ∧
  (∀ (s : State) (r : Byte) (rr : RegIdx), s.pc.toNat ≤ 253 → r.toNat = rr.val → s.regs[7] ≠ 0 →
    ∃ t : State, exec (.call r) s = .next t ∧
      t = { s with mem := t.mem, regs := s.regs.set 7 (s.regs[7] - 1),
                   pc := (if rr = 7 then s.regs[7] - 1 else s.regs[rr]).setWidth 9 } ∧
      (t.byteAt (s.regs[7] - 1).toNat).toNat = s.pc.toNat + 2 ∧
      ∀ x : Nat, x ≠ (s.regs[7] - 1).toNat → t.byteAt x = s.byteAt x) ∧
  (∀ (s : State) (r : Byte), s.pc.toNat = 254 → r.toNat < 8 → exec (.call r) s = .next (addressFault s 256)) ∧
  (∀ (s : State) (r : Byte), s.pc.toNat ≤ 253 → r.toNat < 8 → s.regs[7] = 0 →
    exec (.call r) s = .next (stackFault s (-1))) ∧
  ∀ s : State, OneRegisterFaults .call s

/-- RET pops one byte into `pc`; a pointer of 255 faults (the spec's own decision D12, R132). -/
def Obligations.RetRule : Prop :=
  encode .ret = [0x11] ∧
  (∀ s : State, s.regs[7] ≠ 255 →
    exec .ret s = .next { s with regs := s.regs.set 7 (s.regs[7] + 1), pc := (s.byteAt s.regs[7].toNat).setWidth 9 }) ∧
  (∀ s : State, s.regs[7] = 255 → exec .ret s = .next (stackFault s 256))

/-- R133: JMP goes to its register's value and changes nothing else. -/
def Obligations.JmpRule : Prop :=
  (∀ r : Byte, encode (.jmp r) = [0x54, r]) ∧
  (∀ (s : State) (r : Byte) (rr : RegIdx), s.pc.toNat ≤ 254 → r.toNat = rr.val →
    exec (.jmp r) s = .next { s with pc := s.regs[rr].setWidth 9 }) ∧
  ∀ s : State, OneRegisterFaults .jmp s

/-- JEQ: taken when E is 1, as JMP; otherwise `pc` goes to `ia + 2` whatever the operand byte is and wherever the
instruction stands. That the operand of the path not taken is neither read nor checked is the spec's own decision D14
(R134 marks it so). -/
def Obligations.JeqRule : Prop :=
  (∀ r : Byte, encode (.jeq r) = [0x55, r]) ∧
  (∀ (s : State) (r : Byte) (rr : RegIdx), s.fl.getLsbD 0 = true → s.pc.toNat ≤ 254 → r.toNat = rr.val →
    exec (.jeq r) s = .next { s with pc := s.regs[rr].setWidth 9 }) ∧
  (∀ (s : State) (r : Byte), s.fl.getLsbD 0 = false → exec (.jeq r) s = .next { s with pc := s.pc + 2 }) ∧
  ∀ s : State, s.fl.getLsbD 0 = true → OneRegisterFaults .jeq s

/-- JNE: JEQ with the condition inverted (R135); the operand of the path not taken as in `JeqRule` (D14). -/
def Obligations.JneRule : Prop :=
  (∀ r : Byte, encode (.jne r) = [0x56, r]) ∧
  (∀ (s : State) (r : Byte) (rr : RegIdx), s.fl.getLsbD 0 = false → s.pc.toNat ≤ 254 → r.toNat = rr.val →
    exec (.jne r) s = .next { s with pc := s.regs[rr].setWidth 9 }) ∧
  (∀ (s : State) (r : Byte), s.fl.getLsbD 0 = true → exec (.jne r) s = .next { s with pc := s.pc + 2 }) ∧
  ∀ s : State, s.fl.getLsbD 0 = false → OneRegisterFaults .jne s

/-- PUSH Rr and then POP Rr, as two cycles of the machine: every register, R7 included, is as before and `pc` is past
the pair, provided the POP's own bytes are not the cell pushed to (R122, which the spec marks as derived). -/
def Obligations.PushThenPop : Prop :=
  ∀ (s : State) (r : Byte), s.running = true → s.pc.toNat ≤ 252 → r.toNat < 8 → s.regs[7] ≠ 0 →
    s.byteAt s.pc.toNat = 0x45 → s.byteAt (s.pc.toNat + 1) = r →
    s.byteAt (s.pc.toNat + 2) = 0x46 → s.byteAt (s.pc.toNat + 3) = r →
    (s.regs[7] - 1).toNat ≠ s.pc.toNat + 2 → (s.regs[7] - 1).toNat ≠ s.pc.toNat + 3 →
    ∃ t u : State, step s = .next t ∧ step t = .next u ∧ u = { s with mem := u.mem, pc := s.pc + 4 }

/-- CALL and then a RET that finds the stack as CALL left it: `pc` is the CALL's address plus 2 and the stack pointer is
as before the CALL (R136, which the spec marks as derived). -/
def Obligations.CallThenRet : Prop :=
  ∀ (s t u : State) (r : Byte), s.pc.toNat ≤ 253 → r.toNat < 8 → s.regs[7] ≠ 0 → exec (.call r) s = .next t →
    u.regs[7] = t.regs[7] → u.byteAt u.regs[7].toNat = t.byteAt t.regs[7].toNat →
    ∃ v : State, exec .ret u = .next v ∧ v.pc = s.pc + 2 ∧ v.regs[7] = s.regs[7]

/-! ### Frames: what an instruction leaves unchanged -/

/-- The instructions that write one register: every other register, `fl`, the output and all of memory are unchanged,
and the run state changes only by a fault. -/
def Obligations.RegisterWriterFrame : Prop :=
  ∀ (i : Instr) (d b : Byte) (s t : State),
    i = .add d b ∨ i = .mul d b ∨ i = .mod d b ∨ i = .and d b ∨ i = .or d b ∨ i = .xor d b ∨ i = .shl d b ∨
      i = .shr d b ∨ i = .not d ∨ i = .ldi d b →
    exec i s = .next t →
    (∀ q : RegIdx, q.val ≠ d.toNat → t.regs[q] = s.regs[q]) ∧ t.fl = s.fl ∧ t.out = s.out ∧ SameBytes s t ∧
      RunStateFrame s t

/-- CMP and the jumps write no register, no byte of memory and no output; the jumps leave `fl` alone too. -/
def Obligations.CompareAndJumpFrame : Prop :=
  ∀ (i : Instr) (a b : Byte) (s t : State),
    i = .cmp a b ∨ i = .jmp a ∨ i = .jeq a ∨ i = .jne a → exec i s = .next t →
    t.regs = s.regs ∧ t.out = s.out ∧ SameBytes s t ∧ RunStateFrame s t ∧ (i ≠ .cmp a b → t.fl = s.fl)

/-- PRN changes nothing but the output, HLT nothing but the run state; both may move `pc`. -/
def Obligations.PrintAndHaltFrame : Prop :=
  ∀ (r : Byte) (s t : State),
    (exec (.prn r) s = .next t → t.regs = s.regs ∧ t.fl = s.fl ∧ SameBytes s t ∧ RunStateFrame s t) ∧
    (exec .hlt s = .next t → t.regs = s.regs ∧ t.fl = s.fl ∧ t.out = s.out ∧ SameBytes s t)

/-- ST, PUSH and CALL: every byte outside the one stored to reads as before, every register but the stack pointer of
PUSH and CALL is unchanged, and so are `fl` and the output. -/
def Obligations.StoreFrame : Prop :=
  (∀ (a b : Byte) (s t : State), exec (.st a b) s = .next t →
    t.regs = s.regs ∧ t.fl = s.fl ∧ t.out = s.out ∧ RunStateFrame s t ∧
      ∀ x : Nat, (∀ ra : RegIdx, regIndex a = .ok ra → x ≠ (s.reg ra).toNat) → t.byteAt x = s.byteAt x) ∧
  (∀ (i : Instr) (r : Byte) (s t : State), i = .push r ∨ i = .call r → exec i s = .next t →
    (∀ q : RegIdx, q ≠ spIndex → t.regs[q] = s.regs[q]) ∧ t.fl = s.fl ∧ t.out = s.out ∧ RunStateFrame s t ∧
      ∀ x : Nat, (∀ nsp : Byte, spDown s.sp = .ok nsp → x ≠ nsp.toNat) → t.byteAt x = s.byteAt x)

/-- POP and RET store nothing: all of memory, `fl` and the output are unchanged, and every register but the stack pointer
and POP's destination. -/
def Obligations.PopFrame : Prop :=
  (∀ (r : Byte) (s t : State), exec (.pop r) s = .next t →
    (∀ q : RegIdx, q ≠ spIndex → q.val ≠ r.toNat → t.regs[q] = s.regs[q]) ∧ t.fl = s.fl ∧ t.out = s.out ∧
      SameBytes s t ∧ RunStateFrame s t) ∧
  (∀ s t : State, exec .ret s = .next t →
    (∀ q : RegIdx, q ≠ spIndex → t.regs[q] = s.regs[q]) ∧ t.fl = s.fl ∧ t.out = s.out ∧ SameBytes s t ∧
      RunStateFrame s t)

/-! ### Memory and the two accesses (`20_memory.md`) -/

/-- R31: MemRead reads the byte of an address up to 255 and raises OutOfBoundsAccess with the address, unreduced,
beyond; it changes no state. -/
def Obligations.MemReadRule : Prop :=
  ∀ (s : State) (addr : Nat),
    s.memRead addr = if addr > 255 then .error (.outOfBoundsAccess .memoryAddress addr) else .ok (s.byteAt addr)

/-- MemWrite (R32): outside 0..255 it raises with the address; inside, the cell reads as the value written, every other
cell as before, nothing else changes, and the canonical form of memory is kept. -/
def Obligations.MemWriteRule : Prop :=
  (∀ (s : State) (addr : Int) (v : Byte), addr < 0 ∨ 255 < addr →
    s.memWrite addr v = .error (.outOfBoundsAccess .memoryAddress addr)) ∧
  (∀ (s : State) (addr : Int) (v : Byte), 0 ≤ addr → addr ≤ 255 →
    ∃ t : State, s.memWrite addr v = .ok t ∧ t = { s with mem := t.mem } ∧ t.byteAt addr.toNat = v ∧
      (∀ x : Nat, x ≠ addr.toNat → t.byteAt x = s.byteAt x) ∧ (Memory.wf s.mem → Memory.wf t.mem))

/-- Two memories in canonical form that read alike at every address are the same data. -/
def Obligations.CanonicalMemoryIsUnique : Prop :=
  ∀ m m' : Memory, Memory.wf m → Memory.wf m' → (∀ x : Nat, Memory.read m x = Memory.read m' x) → m = m'

/-- A store is seen by the very next fetch (R40, which the spec marks as derived): after an ST that completes, each byte
the next cycle decodes is the stored one where the store went and the old one elsewhere; so an ST of 0x01 to the next
instruction's address makes the next cycle an HLT. -/
def Obligations.StoreSeenByNextFetch : Prop :=
  ∀ (s t : State) (a b : Byte) (ra rb : RegIdx), s.running = true → s.pc.toNat ≤ 252 →
    a.toNat = ra.val → b.toNat = rb.val → exec (.st a b) s = .next t →
    (∀ k : Nat, k < 3 → s.pc.toNat + 3 + k ≤ 255 →
      t.window.getD k 0 =
        if s.pc.toNat + 3 + k = s.regs[ra].toNat then s.regs[rb] else s.byteAt (s.pc.toNat + 3 + k)) ∧
    (s.regs[ra].toNat = s.pc.toNat + 3 → s.regs[rb] = 0x01 →
      step t = .next { t with running := false, haltReason := .halted, pc := s.pc + 4 })

/-! ### Encoding (`30_encoding.md`) -/

/-- DECODE AND ENCODE AGREE: the bytes of every instruction, with every operand byte at every value, decode to that
instruction, whatever follows them in memory. -/
def Obligations.DecodeOfEncode : Prop :=
  ∀ (i : Instr) (rest : List Byte), decodeBytes (encode i ++ rest) = .ok i

/-- ENCODE AND DECODE AGREE the other way: bytes that decode to an instruction, and are not cut short, begin with that
instruction's encoding. -/
def Obligations.EncodeOfDecode : Prop :=
  ∀ (i : Instr) (bs : List Byte), decodeBytes bs = .ok i → (encode i).length ≤ bs.length →
    ∃ rest : List Byte, bs = encode i ++ rest

/-- The decoder is total on all 256 opcode bytes (R56): 21 decode to an instruction and 235 to none, of which 117 are
unknown opcodes and 118 unsupported ALU operations (R58); a byte that is no instruction's opcode is rejected by bit 5
alone. That CMP is among the ALU bytes is the spec's own decision D7 (log entry 4). -/
def Obligations.OpcodeCensus : Prop :=
  (∀ ir b1 b2 : Byte, (∀ m : Mnemonic, opcodeOf m ≠ ir) →
    decode ir b1 b2 = .error (if ir.getLsbD 5 then .unsupportedALUOperation ir else .unknownOpcode ir)) ∧
  ((List.range 256).filter fun n => (lookupOpcode (BitVec.ofNat 8 n)).isSome).length = 21 ∧
  ((List.range 256).filter fun n =>
    decide (decode (BitVec.ofNat 8 n) 0 0 = .error (.unknownOpcode (BitVec.ofNat 8 n)))).length = 117 ∧
  ((List.range 256).filter fun n =>
    decide (decode (BitVec.ofNat 8 n) 0 0 = .error (.unsupportedALUOperation (BitVec.ofNat 8 n)))).length = 118

/-- Every instruction's encoding starts with its opcode byte and is `1 + opcode[7:6]` bytes long. -/
def Obligations.EncodedLengthRule : Prop :=
  ∀ i : Instr, (encode i).length = 1 + (opcodeOf i.mnemonic).toNat / 64 ∧
    (encode i).head? = some (opcodeOf i.mnemonic) ∧ (encode i).length ≤ 3

/-- DECODING IS RIGHT on words written out from the rules' encodings and the spec's programs P1 to P4, one of each
family: sanity only. -/
def Obligations.SpecWordsDecode : Prop :=
  decodeBytes [0b10100000, 3, 4] = .ok (.add 3 4) ∧ decodeBytes [0b01101001, 0] = .ok (.not 0) ∧
  decodeBytes [0b10100111, 0, 2] = .ok (.cmp 0 2) ∧ decodeBytes [0b10101101, 0, 1] = .ok (.shr 0 1) ∧
  decodeBytes [0b10000010, 0, 8] = .ok (.ldi 0 8) ∧ decodeBytes [0b10000100, 0, 1] = .ok (.st 0 1) ∧
  decodeBytes [0b01000111, 0] = .ok (.prn 0) ∧ decodeBytes [0b00000001] = .ok .hlt ∧
  decodeBytes [0b01000101, 1] = .ok (.push 1) ∧ decodeBytes [0b01000110, 3] = .ok (.pop 3) ∧
  decodeBytes [0b01010000, 1] = .ok (.call 1) ∧ decodeBytes [0b00010001] = .ok .ret ∧
  decodeBytes [0b01010100, 3] = .ok (.jmp 3) ∧ decodeBytes [0b01010101, 4] = .ok (.jeq 4)

/-! ### The engine (`40_engine.md`) and the faults (`60_exceptions.md`) -/

/-- A STEP RUNS THE DECODED INSTRUCTION: on a RUNNING machine whose `pc` is an address, when the bytes at `pc` decode to
an instruction, the step is `exec` of it. Nothing is added around `exec`: the default advance of `pc` is part of each
meaning. -/
def Obligations.StepRunsDecodedInstruction : Prop :=
  ∀ (s : State) (i : Instr), s.running = true → s.pc.toNat ≤ 255 → decodeBytes s.window = .ok i → step s = exec i s

/-- The bytes the step decodes are those at `pc`: an instruction whose encoding lies in memory at `pc`, wholly inside the
256 addresses, is the one the step runs. -/
def Obligations.StepRunsEncodedInstruction : Prop :=
  ∀ (s : State) (i : Instr), s.running = true → s.pc.toNat + (encode i).length ≤ 256 →
    (∀ k (h : k < (encode i).length), s.byteAt (s.pc.toNat + k) = (encode i)[k]) → step s = exec i s

/-- An operand byte beyond address 255 does not exist, and no instruction's outcome depends on what the fetch put in its
place: at address 255 on neither operand byte, at address 254 not on the second (log entry 1, the model's choice). -/
def Obligations.OperandBeyondMemoryNeverMatters : Prop :=
  (∀ (s : State) (ir b1 b2 c1 c2 : Byte) (i j : Instr), s.pc.toNat = 255 →
    decode ir b1 b2 = .ok i → decode ir c1 c2 = .ok j → exec i s = exec j s) ∧
  (∀ (s : State) (ir b1 b2 c2 : Byte) (i j : Instr), s.pc.toNat = 254 →
    decode ir b1 b2 = .ok i → decode ir b1 c2 = .ok j → exec i s = exec j s)

/-- R71: the opcode byte of a cycle is the byte at `pc` (here with the two after it, all three in memory); a fetch with
`pc` beyond 255 raises OutOfBoundsAccess(MemoryAddress, pc) and the cycle ends. -/
def Obligations.FetchRule : Prop :=
  (∀ (s : State) (i : Instr), s.running = true → s.pc.toNat ≤ 253 →
    decode (s.byteAt s.pc.toNat) (s.byteAt (s.pc.toNat + 1)) (s.byteAt (s.pc.toNat + 2)) = .ok i →
    step s = exec i s) ∧
  ∀ s : State, s.running = true → 255 < s.pc.toNat → step s = .next (addressFault s s.pc.toNat)

/-- R151: a fetched byte with bit 5 clear that is no instruction raises UnknownOpcode, with no operand byte read, so also
at the end of memory. -/
def Obligations.UnknownOpcodeFaults : Prop :=
  ∀ (s : State) (ir : Byte), s.running = true → s.pc.toNat ≤ 255 → s.byteAt s.pc.toNat = ir →
    ir.getLsbD 5 = false → (∀ m : Mnemonic, opcodeOf m ≠ ir) → step s = .next (haltedWith s (.unknownOpcode ir s.pc))

/-- R152: a fetched byte with bit 5 set that is no instruction raises UnsupportedALUOperation after the two operand
reads, so from address 254 on the recorded fault is OutOfBoundsAccess. -/
def Obligations.UnsupportedOperationFaults : Prop :=
  ∀ (s : State) (ir : Byte), s.running = true → s.byteAt s.pc.toNat = ir → ir.getLsbD 5 = true →
    (∀ m : Mnemonic, opcodeOf m ≠ ir) →
    (s.pc.toNat ≤ 253 → step s = .next (haltedWith s (.unsupportedALUOperation ir s.pc))) ∧
    (254 ≤ s.pc.toNat → s.pc.toNat ≤ 255 → step s = .next (addressFault s 256))

/-- While RUNNING every cycle has a next state, whatever memory and registers hold; a HALTED machine has no step. The
outcome of asking a HALTED machine is the spec's own decision D19 (R70) and log entry 2. -/
def Obligations.StepExactlyWhileRunning : Prop :=
  ∀ s : State, (s.running = true → ∃ t : State, step s = .next t) ∧
    (s.running = false → step s = .refused .halted)

/-- R12: an operand byte used as a register index must be 0..7: one above 7 raises OutOfBoundsAccess(RegisterIndex) with
the whole byte, unmasked, and changes nothing else; and a byte that is not used as an index is never checked. -/
def Obligations.RegisterIndexCheck : Prop :=
  (∀ (i : Instr) (s : State), operandsInMemory i s → (∃ b ∈ usedIndexBytes i s, 8 ≤ b.toNat) →
    ∃ b ∈ usedIndexBytes i s, 8 ≤ b.toNat ∧ exec i s = .next (indexFault s b)) ∧
  (∀ (i : Instr) (s t : State) (v : Int) (ia : PcWord), s.haltReason = .none →
    (∀ b ∈ usedIndexBytes i s, b.toNat < 8) → exec i s = .next t →
    t.haltReason ≠ .outOfBoundsAccess .registerIndex v ia)

/-- R153: DivisionByZero is raised by MOD with a zero divisor register, after both indices were found valid, records the
MOD's address, leaves the destination alone, and is raised by no other instruction. -/
def Obligations.DivisionByZeroOnlyByMod : Prop :=
  (∀ (s : State) (a b : Byte) (ra rb : RegIdx), s.pc.toNat ≤ 253 → a.toNat = ra.val → b.toNat = rb.val →
    s.regs[rb] = 0 → exec (.mod a b) s = .next (haltedWith s (.divisionByZero s.pc))) ∧
  (∀ (i : Instr) (s t : State) (ia : PcWord), s.haltReason = .none → exec i s = .next t →
    t.haltReason = .divisionByZero ia →
    ∃ (a b : Byte) (rb : RegIdx), i = .mod a b ∧ a.toNat < 8 ∧ b.toNat = rb.val ∧ s.regs[rb] = 0 ∧
      t = haltedWith s (.divisionByZero s.pc))

/-- A cycle that stops the machine is either HLT's, or a precise fault: then only `running` and `halt_reason` have
changed, the recorded address is the instruction's and `pc` stays there. That EVERY fault is precise is the spec's own
decision D9, D10 (R157). -/
def Obligations.StopsArePrecise : Prop :=
  ∀ s t : State, step s = .next t → t.running = false →
    (t = { s with running := false, haltReason := .halted, pc := s.pc + 1 }) ∨
    (∃ f : Raise, t = haltedWith s (f.at s.pc) ∧ t.haltReason.isFault = true)

/-- `pc` after an instruction that completes and whose opcode lacks the sets-PC bit is `ia + 1 + count`; after a fault it
is `ia` (R76 and the table of R17, which the spec marks as derived). -/
def Obligations.DefaultAdvance : Prop :=
  ∀ (i : Instr) (s t : State), exec i s = .next t → (opcodeOf i.mnemonic).getLsbD 4 = false →
    t.pc = s.pc + BitVec.ofNat 9 (encode i).length ∨ ∃ why, why.isFault = true ∧ t = haltedWith s why

/-- No instruction but CMP changes `fl` (R15, whose direction and reset value are the spec's decisions). -/
def Obligations.FlagsWrittenOnlyByCmp : Prop :=
  ∀ (i : Instr) (s t : State), i.mnemonic ≠ .cmp → exec i s = .next t → t.fl = s.fl

/-- The output is append-only, and only PRN appends: the value of its register (R20, decision D17). -/
def Obligations.OutputWrittenOnlyByPrn : Prop :=
  ∀ (i : Instr) (s t : State), exec i s = .next t →
    t.out = s.out ∨ ∃ (r : Byte) (rr : RegIdx), i = .prn r ∧ r.toNat = rr.val ∧ t.out = s.out ++ [s.regs[rr]]

/-- Memory changes by ST, PUSH and CALL only (R21, R35). -/
def Obligations.MemoryWrittenOnlyByStores : Prop :=
  ∀ (i : Instr) (s t : State), exec i s = .next t → t.mem ≠ s.mem →
    i.mnemonic = .st ∨ i.mnemonic = .push ∨ i.mnemonic = .call

/-- Nothing reads G or L (R15): two states that differ only in those bits take steps that differ at most there, and
the machine stops in one exactly when it stops in the other. -/
def Obligations.GreaterAndLessNeverRead : Prop :=
  ∀ s s' t : State, AgreeButGL s s' → step s = .next t → ∃ t' : State, step s' = .next t' ∧ AgreeButGL t t'

/-- No instruction reads `out` (R20): the output so far has no influence on the rest of the state, nor on what is
appended. -/
def Obligations.OutputNeverRead : Prop :=
  ∀ (s t : State) (o : List Byte), step s = .next t →
    ∃ v : List Byte, t.out = s.out ++ v ∧ step { s with out := o } = .next { t with out := o ++ v }

/-! ### Reset, load, and the invariant -/

/-- Reset: memory all 0, R0 to R6 are 0, R7 is 0xF4, RUNNING, nothing recorded, no output, `fl` and `pc` 0. The last two
values are the spec's own decisions D2 and D1 (R23). -/
def Obligations.ResetState : Prop :=
  (∀ x : Nat, State.reset.byteAt x = 0) ∧
  (∀ q : RegIdx, State.reset.regs[q] = if q = 7 then 0xF4 else 0) ∧
  State.reset.fl = 0 ∧ State.reset.pc = 0 ∧ State.reset.running = true ∧ State.reset.haltReason = .none ∧
  State.reset.out = []

/-- Load: a program of at most 256 bytes lies at addresses 0, 1, ... with every other cell 0 and every other item as
reset left it; a longer one is refused, which is the spec's own decision D18 (R184). -/
def Obligations.LoadRule : Prop :=
  (∀ p : List Byte, p.length ≤ 256 → ∃ s : State, load p = .next s ∧ s = { State.reset with mem := s.mem } ∧
    ∀ x : Nat, s.byteAt x = p.getD x 0) ∧
  (∀ p : List Byte, 256 < p.length → load p = .refused .programTooLong)

/-- The invariant holds at reset. -/
def Obligations.InvariantAtReset : Prop := State.reset.Inv

/-- The invariant holds after every accepted load. -/
def Obligations.InvariantAfterLoad : Prop := ∀ (p : List Byte) (s : State), load p = .next s → s.Inv

/-- AN INVARIANT EVERY STEP KEEPS: memory stays canonical (and so inside the 256 addresses), at most one flag bit is set
and bits 7:3 of `fl` stay 0, `pc` stays in 0..257, and the machine is RUNNING exactly while nothing is recorded. The
flag positions, the width of `pc` and the last clause rest on the spec's decisions D4, D3 and D16 (R14, R17, R19). -/
def Obligations.InvariantKept : Prop :=
  ∀ s t : State, s.Inv → step s = .next t → t.Inv
end

