-- ==== Sys2Proof/Laws/Decode.lean ====
section
/-! SUPPORT. The laws of the opcode map: its fields agree with the formats, and a byte selects at most one
instruction. -/

namespace Sys2Proof

theorem Mnemonic.mem_all (m : Mnemonic) : m ∈ Mnemonic.all := by cases m <;> decide

/-- The 21 bytes are pairwise distinct (R55). -/
theorem opcodeOf_injective {m n : Mnemonic} (h : opcodeOf m = opcodeOf n) : m = n := by
  revert h; cases m <;> cases n <;> decide

/-- Every opcode byte selects its own instruction. -/
@[simp] theorem lookupOpcode_opcodeOf (m : Mnemonic) : lookupOpcode (opcodeOf m) = some m := by
  cases m <;> decide

/-- A byte selects an instruction only if all 8 bits match (R55). -/
theorem lookupOpcode_eq_some {ir : Byte} {m : Mnemonic} : lookupOpcode ir = some m ↔ ir = opcodeOf m := by
  constructor
  · intro h
    exact (beq_iff_eq.1 (List.find?_some (p := fun m => opcodeOf m == ir) h)).symm
  · rintro rfl; simp

/-- The count field of every defined opcode is the number of operand bytes of its format (R55). -/
theorem opCount_opcodeOf (m : Mnemonic) : opCount (opcodeOf m) = m.format.operandBytes := by
  cases m <;> decide

theorem Format.operandBytes_le (f : Format) : f.operandBytes ≤ 2 := by cases f <;> decide

theorem Instr.operands_length (i : Instr) : i.operands.length = i.mnemonic.format.operandBytes := by
  cases i <;> rfl

@[simp] theorem Mnemonic.mnemonic_withOperands (m : Mnemonic) (b1 b2 : Byte) :
    (m.withOperands b1 b2).mnemonic = m := by
  cases m <;> rfl

/-- Everything the decoder can answer. -/
theorem decode_eq_ok {ir b1 b2 : Byte} {i : Instr} :
    decode ir b1 b2 = .ok i ↔ ir = opcodeOf i.mnemonic ∧ i = i.mnemonic.withOperands b1 b2 := by
  unfold decode
  split
  · rename_i m hm
    rw [lookupOpcode_eq_some] at hm
    subst hm
    constructor
    · rintro ⟨rfl⟩; simp
    · rintro ⟨h1, h2⟩
      rw [opcodeOf_injective h1, ← h2]
  · rename_i hm
    constructor
    · intro h; simp at h
    · rintro ⟨rfl, -⟩; simp at hm

/-- Each instruction is what its mnemonic makes of its operand bytes. -/
theorem Instr.withOperands_operands (i : Instr) :
    i.mnemonic.withOperands (i.operands.getD 0 0) (i.operands.getD 1 0) = i := by
  cases i <;> rfl

end Sys2Proof
end

