-- ==== Sys2Proof/Laws/Memory.lean ====
section
/-! SUPPORT. The laws of memory: a read after a write, and that the one write keeps the canonical form. -/

namespace Sys2Proof.Machine

theorem Memory.read_of_not_mem {m : Memory} {x : Nat} (h : ∀ c ∈ m, c.1 ≠ x) : Memory.read m x = unlistedByte := by
  induction m with
  | nil => rfl
  | cons c m ih =>
    rw [Memory.read, if_neg (h c (by simp))]
    exact ih fun d hd => h d (by simp [hd])

theorem Memory.mem_erase {m : Memory} {x : Nat} {c : Host.Cell} : c ∈ Memory.erase m x ↔ c ∈ m ∧ c.1 ≠ x := by
  simp [Memory.erase]

theorem Memory.read_erase_same (m : Memory) (x : Nat) : Memory.read (Memory.erase m x) x = unlistedByte :=
  Memory.read_of_not_mem fun _ hc => (Memory.mem_erase.1 hc).2

theorem Memory.read_erase_ne (m : Memory) {x y : Nat} (h : y ≠ x) :
    Memory.read (Memory.erase m x) y = Memory.read m y := by
  induction m with
  | nil => rfl
  | cons c m ih =>
    by_cases hc : c.1 = x
    · have : c.1 ≠ y := by omega
      simp only [Memory.erase] at ih ⊢
      simp [hc, Memory.read, ih, h.symm]
    · simp only [Memory.erase] at ih ⊢
      simp [hc, Memory.read, ih]

theorem Memory.read_insert_same {m : Memory} {x : Nat} (v : Byte) (h : ∀ c ∈ m, c.1 ≠ x) :
    Memory.read (Memory.insert m x v) x = v := by
  induction m with
  | nil => simp [Memory.insert, Memory.read]
  | cons c m ih =>
    have hc : c.1 ≠ x := h c (by simp)
    have ih := ih fun d hd => h d (by simp [hd])
    rw [Memory.insert]
    split
    · simp [Memory.read]
    · simp [Memory.read, hc, ih]

theorem Memory.read_insert_ne (m : Memory) {x y : Nat} (v : Byte) (h : y ≠ x) :
    Memory.read (Memory.insert m x v) y = Memory.read m y := by
  induction m with
  | nil => simp [Memory.insert, Memory.read, h.symm]
  | cons c m ih =>
    rw [Memory.insert]
    split
    · simp [Memory.read, h.symm]
    · simp [Memory.read, ih]

/-- A read after a write to the same address gives the value written, in every memory. -/
@[simp] theorem Memory.read_write_same (m : Memory) (x : Nat) (v : Byte) :
    Memory.read (Memory.write m x v) x = v := by
  unfold Memory.write
  split
  · rw [Memory.read_erase_same]; exact (‹v = unlistedByte›).symm
  · exact Memory.read_insert_same v fun _ hc => (Memory.mem_erase.1 hc).2

/-- A write leaves every other address alone, in every memory. -/
theorem Memory.read_write_ne (m : Memory) {x y : Nat} (v : Byte) (h : y ≠ x) :
    Memory.read (Memory.write m x v) y = Memory.read m y := by
  unfold Memory.write
  split
  · exact Memory.read_erase_ne m h
  · rw [Memory.read_insert_ne _ v h, Memory.read_erase_ne m h]

@[simp] theorem State.byteAt_setByte_same (s : State) (x : Nat) (v : Byte) : (s.setByte x v).byteAt x = v :=
  Memory.read_write_same s.mem x v

theorem State.byteAt_setByte_ne (s : State) {x y : Nat} (v : Byte) (h : y ≠ x) :
    (s.setByte x v).byteAt y = s.byteAt y :=
  Memory.read_write_ne s.mem v h

theorem Memory.mem_insert {m : Memory} {x : Nat} {v : Byte} {c : Host.Cell} :
    c ∈ Memory.insert m x v ↔ c = (x, v) ∨ c ∈ m := by
  induction m with
  | nil => simp [Memory.insert]
  | cons d m ih =>
    rw [Memory.insert]
    split
    · simp
    · simp only [List.mem_cons, ih]; tauto

theorem Memory.pairwise_insert {m : Memory} {x : Nat} {v : Byte} (hm : m.Pairwise fun c d => c.1 < d.1)
    (hx : ∀ c ∈ m, c.1 ≠ x) : (Memory.insert m x v).Pairwise fun c d => c.1 < d.1 := by
  induction m with
  | nil => simp [Memory.insert]
  | cons d m ih =>
    rw [List.pairwise_cons] at hm
    have hd : d.1 ≠ x := hx d (by simp)
    rw [Memory.insert]
    split
    · rw [List.pairwise_cons, List.pairwise_cons]
      refine ⟨fun c hc => ?_, hm⟩
      rcases List.mem_cons.1 hc with rfl | hc
      · assumption
      · have := hm.1 c hc; show x < c.1; omega
    · rw [List.pairwise_cons]
      refine ⟨fun c hc => ?_, ih hm.2 fun c hc => hx c (by simp [hc])⟩
      rcases Memory.mem_insert.1 hc with rfl | hc
      · show d.1 < x; omega
      · exact hm.1 c hc

theorem Memory.wf_nil : Memory.wf [] := by simp [Memory.wf]

theorem Memory.wf_erase {m : Memory} (h : Memory.wf m) (x : Nat) : Memory.wf (Memory.erase m x) :=
  ⟨h.1.filter _, fun c hc => h.2 c (Memory.mem_erase.1 hc).1⟩

/-- The one write keeps the canonical form, for an address of the memory. -/
theorem Memory.wf_write {m : Memory} (h : Memory.wf m) {x : Nat} (hx : x < Config.memSize) (v : Byte) :
    Memory.wf (Memory.write m x v) := by
  unfold Memory.write
  split
  · exact Memory.wf_erase h x
  · refine ⟨Memory.pairwise_insert (Memory.wf_erase h x).1 fun c hc => (Memory.mem_erase.1 hc).2, fun c hc => ?_⟩
    rcases Memory.mem_insert.1 hc with rfl | hc
    · exact ⟨hx, ‹_›⟩
    · exact (Memory.wf_erase h x).2 c hc

/-- Placing bytes keeps the canonical form. -/
theorem Memory.storeBytes_wf {s : State} (h : Memory.wf s.mem) (base : Nat) (bs : List Byte) :
    Memory.wf (s.storeBytes base bs).mem := by
  induction bs generalizing s base with
  | nil => exact h
  | cons b bs ih =>
    rw [State.storeBytes]
    split
    · exact ih (Memory.wf_write h ‹_› b) _
    · exact ih h _

end Sys2Proof.Machine
end

