-- ==== Sys2Proof/Laws/State.lean ====
section
/-! SUPPORT. One lemma per field per update of State, true by unfolding, so that no later proof unfolds a record update;
and how the readers of State see each update. -/

namespace Sys2Proof.Machine

@[simp] theorem State.setReg_mem (s : State) (r : RegIdx) (v : Byte) : (s.setReg r v).mem = s.mem := rfl
@[simp] theorem State.setReg_regs (s : State) (r : RegIdx) (v : Byte) : (s.setReg r v).regs = s.regs.set r v r.isLt := rfl
@[simp] theorem State.setReg_fl (s : State) (r : RegIdx) (v : Byte) : (s.setReg r v).fl = s.fl := rfl
@[simp] theorem State.setReg_pc (s : State) (r : RegIdx) (v : Byte) : (s.setReg r v).pc = s.pc := rfl
@[simp] theorem State.setReg_running (s : State) (r : RegIdx) (v : Byte) : (s.setReg r v).running = s.running := rfl
@[simp] theorem State.setReg_haltReason (s : State) (r : RegIdx) (v : Byte) : (s.setReg r v).haltReason = s.haltReason := rfl
@[simp] theorem State.setReg_out (s : State) (r : RegIdx) (v : Byte) : (s.setReg r v).out = s.out := rfl

@[simp] theorem State.setPc_mem (s : State) (p : PcWord) : (s.setPc p).mem = s.mem := rfl
@[simp] theorem State.setPc_regs (s : State) (p : PcWord) : (s.setPc p).regs = s.regs := rfl
@[simp] theorem State.setPc_fl (s : State) (p : PcWord) : (s.setPc p).fl = s.fl := rfl
@[simp] theorem State.setPc_pc (s : State) (p : PcWord) : (s.setPc p).pc = p := rfl
@[simp] theorem State.setPc_running (s : State) (p : PcWord) : (s.setPc p).running = s.running := rfl
@[simp] theorem State.setPc_haltReason (s : State) (p : PcWord) : (s.setPc p).haltReason = s.haltReason := rfl
@[simp] theorem State.setPc_out (s : State) (p : PcWord) : (s.setPc p).out = s.out := rfl

@[simp] theorem State.setFlags_mem (s : State) (v : Byte) : (s.setFlags v).mem = s.mem := rfl
@[simp] theorem State.setFlags_regs (s : State) (v : Byte) : (s.setFlags v).regs = s.regs := rfl
@[simp] theorem State.setFlags_fl (s : State) (v : Byte) : (s.setFlags v).fl = v := rfl
@[simp] theorem State.setFlags_pc (s : State) (v : Byte) : (s.setFlags v).pc = s.pc := rfl
@[simp] theorem State.setFlags_running (s : State) (v : Byte) : (s.setFlags v).running = s.running := rfl
@[simp] theorem State.setFlags_haltReason (s : State) (v : Byte) : (s.setFlags v).haltReason = s.haltReason := rfl
@[simp] theorem State.setFlags_out (s : State) (v : Byte) : (s.setFlags v).out = s.out := rfl

@[simp] theorem State.setByte_mem (s : State) (x : Nat) (v : Byte) : (s.setByte x v).mem = Memory.write s.mem x v := rfl
@[simp] theorem State.setByte_regs (s : State) (x : Nat) (v : Byte) : (s.setByte x v).regs = s.regs := rfl
@[simp] theorem State.setByte_fl (s : State) (x : Nat) (v : Byte) : (s.setByte x v).fl = s.fl := rfl
@[simp] theorem State.setByte_pc (s : State) (x : Nat) (v : Byte) : (s.setByte x v).pc = s.pc := rfl
@[simp] theorem State.setByte_running (s : State) (x : Nat) (v : Byte) : (s.setByte x v).running = s.running := rfl
@[simp] theorem State.setByte_haltReason (s : State) (x : Nat) (v : Byte) : (s.setByte x v).haltReason = s.haltReason := rfl
@[simp] theorem State.setByte_out (s : State) (x : Nat) (v : Byte) : (s.setByte x v).out = s.out := rfl

@[simp] theorem State.emit_mem (s : State) (v : Byte) : (s.emit v).mem = s.mem := rfl
@[simp] theorem State.emit_regs (s : State) (v : Byte) : (s.emit v).regs = s.regs := rfl
@[simp] theorem State.emit_fl (s : State) (v : Byte) : (s.emit v).fl = s.fl := rfl
@[simp] theorem State.emit_pc (s : State) (v : Byte) : (s.emit v).pc = s.pc := rfl
@[simp] theorem State.emit_running (s : State) (v : Byte) : (s.emit v).running = s.running := rfl
@[simp] theorem State.emit_haltReason (s : State) (v : Byte) : (s.emit v).haltReason = s.haltReason := rfl
@[simp] theorem State.emit_out (s : State) (v : Byte) : (s.emit v).out = s.out ++ [v] := rfl

@[simp] theorem State.stop_mem (s : State) (why : HaltReason) : (s.stop why).mem = s.mem := rfl
@[simp] theorem State.stop_regs (s : State) (why : HaltReason) : (s.stop why).regs = s.regs := rfl
@[simp] theorem State.stop_fl (s : State) (why : HaltReason) : (s.stop why).fl = s.fl := rfl
@[simp] theorem State.stop_pc (s : State) (why : HaltReason) : (s.stop why).pc = s.pc := rfl
@[simp] theorem State.stop_running (s : State) (why : HaltReason) : (s.stop why).running = false := rfl
@[simp] theorem State.stop_haltReason (s : State) (why : HaltReason) : (s.stop why).haltReason = why := rfl
@[simp] theorem State.stop_out (s : State) (why : HaltReason) : (s.stop why).out = s.out := rfl

@[simp] theorem State.raise_mem (s : State) (f : Raise) : (s.raise f).mem = s.mem := rfl
@[simp] theorem State.raise_regs (s : State) (f : Raise) : (s.raise f).regs = s.regs := rfl
@[simp] theorem State.raise_fl (s : State) (f : Raise) : (s.raise f).fl = s.fl := rfl
@[simp] theorem State.raise_pc (s : State) (f : Raise) : (s.raise f).pc = s.pc := rfl
@[simp] theorem State.raise_running (s : State) (f : Raise) : (s.raise f).running = false := rfl
@[simp] theorem State.raise_haltReason (s : State) (f : Raise) : (s.raise f).haltReason = f.at s.pc := rfl
@[simp] theorem State.raise_out (s : State) (f : Raise) : (s.raise f).out = s.out := rfl

@[simp] theorem State.byteAt_setReg (s : State) (r : RegIdx) (v : Byte) (y : Nat) : (s.setReg r v).byteAt y = s.byteAt y := rfl
@[simp] theorem State.equalFlag_setReg (s : State) (r : RegIdx) (v : Byte) : (s.setReg r v).equalFlag = s.equalFlag := rfl
@[simp] theorem State.reg_setPc (s : State) (p : PcWord) (q : RegIdx) : (s.setPc p).reg q = s.reg q := rfl
@[simp] theorem State.sp_setPc (s : State) (p : PcWord) : (s.setPc p).sp = s.sp := rfl
@[simp] theorem State.byteAt_setPc (s : State) (p : PcWord) (y : Nat) : (s.setPc p).byteAt y = s.byteAt y := rfl
@[simp] theorem State.equalFlag_setPc (s : State) (p : PcWord) : (s.setPc p).equalFlag = s.equalFlag := rfl
@[simp] theorem State.reg_setFlags (s : State) (v : Byte) (q : RegIdx) : (s.setFlags v).reg q = s.reg q := rfl
@[simp] theorem State.sp_setFlags (s : State) (v : Byte) : (s.setFlags v).sp = s.sp := rfl
@[simp] theorem State.byteAt_setFlags (s : State) (v : Byte) (y : Nat) : (s.setFlags v).byteAt y = s.byteAt y := rfl
@[simp] theorem State.reg_setByte (s : State) (x : Nat) (v : Byte) (q : RegIdx) : (s.setByte x v).reg q = s.reg q := rfl
@[simp] theorem State.sp_setByte (s : State) (x : Nat) (v : Byte) : (s.setByte x v).sp = s.sp := rfl
@[simp] theorem State.equalFlag_setByte (s : State) (x : Nat) (v : Byte) : (s.setByte x v).equalFlag = s.equalFlag := rfl
@[simp] theorem State.reg_emit (s : State) (v : Byte) (q : RegIdx) : (s.emit v).reg q = s.reg q := rfl
@[simp] theorem State.sp_emit (s : State) (v : Byte) : (s.emit v).sp = s.sp := rfl
@[simp] theorem State.byteAt_emit (s : State) (v : Byte) (y : Nat) : (s.emit v).byteAt y = s.byteAt y := rfl
@[simp] theorem State.equalFlag_emit (s : State) (v : Byte) : (s.emit v).equalFlag = s.equalFlag := rfl
@[simp] theorem State.reg_stop (s : State) (why : HaltReason) (q : RegIdx) : (s.stop why).reg q = s.reg q := rfl
@[simp] theorem State.sp_stop (s : State) (why : HaltReason) : (s.stop why).sp = s.sp := rfl
@[simp] theorem State.byteAt_stop (s : State) (why : HaltReason) (y : Nat) : (s.stop why).byteAt y = s.byteAt y := rfl
@[simp] theorem State.equalFlag_stop (s : State) (why : HaltReason) : (s.stop why).equalFlag = s.equalFlag := rfl
@[simp] theorem State.reg_raise (s : State) (f : Raise) (q : RegIdx) : (s.raise f).reg q = s.reg q := rfl
@[simp] theorem State.sp_raise (s : State) (f : Raise) : (s.raise f).sp = s.sp := rfl
@[simp] theorem State.byteAt_raise (s : State) (f : Raise) (y : Nat) : (s.raise f).byteAt y = s.byteAt y := rfl
@[simp] theorem State.equalFlag_raise (s : State) (f : Raise) : (s.raise f).equalFlag = s.equalFlag := rfl

@[simp] theorem State.reg_setReg_same (s : State) (r : RegIdx) (v : Byte) : (s.setReg r v).reg r = v := by
  simp [State.reg, State.setReg]

theorem State.reg_setReg_ne (s : State) {r q : RegIdx} (v : Byte) (h : q ≠ r) : (s.setReg r v).reg q = s.reg q := by
  have h' : r.val ≠ q.val := fun e => h (Fin.ext e.symm)
  simp [State.reg, State.setReg, h']

theorem State.reg_setReg (s : State) (r q : RegIdx) (v : Byte) :
    (s.setReg r v).reg q = if q = r then v else s.reg q := by
  split
  · subst q; simp
  · exact State.reg_setReg_ne s v ‹_›

/-- The default advance, seen through each field. -/
@[simp] theorem State.engineAdvance_mem (s : State) (ir : Byte) : (s.engineAdvance ir).mem = s.mem := by
  unfold State.engineAdvance; split <;> rfl
@[simp] theorem State.engineAdvance_regs (s : State) (ir : Byte) : (s.engineAdvance ir).regs = s.regs := by
  unfold State.engineAdvance; split <;> rfl
@[simp] theorem State.engineAdvance_fl (s : State) (ir : Byte) : (s.engineAdvance ir).fl = s.fl := by
  unfold State.engineAdvance; split <;> rfl
@[simp] theorem State.engineAdvance_running (s : State) (ir : Byte) : (s.engineAdvance ir).running = s.running := by
  unfold State.engineAdvance; split <;> rfl
@[simp] theorem State.engineAdvance_haltReason (s : State) (ir : Byte) :
    (s.engineAdvance ir).haltReason = s.haltReason := by
  unfold State.engineAdvance; split <;> rfl
@[simp] theorem State.engineAdvance_out (s : State) (ir : Byte) : (s.engineAdvance ir).out = s.out := by
  unfold State.engineAdvance; split <;> rfl
@[simp] theorem State.reg_engineAdvance (s : State) (ir : Byte) (q : RegIdx) :
    (s.engineAdvance ir).reg q = s.reg q := by
  unfold State.engineAdvance; split <;> rfl
@[simp] theorem State.byteAt_engineAdvance (s : State) (ir : Byte) (y : Nat) :
    (s.engineAdvance ir).byteAt y = s.byteAt y := by
  unfold State.engineAdvance; split <;> rfl

end Sys2Proof.Machine
end

