-- ==== Sys2Proof/Laws/Ops.lean ====
section
/-! SUPPORT. One lemma for each shared operation that says once everything it can do; proofs about instructions cite
these and do not unfold the operations. Sizes stand as numerals here (256 bytes, 8 registers), which omega reads. -/

namespace Sys2Proof.Machine

/-! ### Sizes and ranges of the words -/

/-- The numerals in the types are the parameters of R4. -/
theorem word_widths : Byte = BitVec Config.xlen ∧ PcWord = BitVec Config.pcWidth ∧ RegIdx = Fin Config.nReg :=
  ⟨rfl, rfl, rfl⟩

@[simp] theorem memSize_eq : Config.memSize = 256 := rfl

@[simp] theorem nReg_eq : Config.nReg = 8 := rfl

theorem Byte.toNat_lt (b : Byte) : b.toNat < 256 := b.isLt

theorem PcWord.toNat_lt (p : PcWord) : p.toNat < 512 := p.isLt

theorem RegIdx.val_lt (r : RegIdx) : r.val < 8 := r.isLt

/-- `pc` moved on by a small amount does not wrap its ninth bit. -/
theorem PcWord.toNat_add_ofNat {p : PcWord} {n : Nat} (h : p.toNat + n < 512) :
    (p + BitVec.ofNat 9 n).toNat = p.toNat + n := by
  rw [BitVec.toNat_add, BitVec.toNat_ofNat, Nat.add_mod_mod]
  exact Nat.mod_eq_of_lt h

/-! ### Sequencing of checks -/

@[simp] theorem Check.ok_bind {α β : Type} (x : α) (f : α → Check β) : ((.ok x : Check α) >>= f) = f x := rfl

@[simp] theorem Check.error_bind {α β : Type} (e : Raise) (f : α → Check β) :
    ((.error e : Check α) >>= f) = .error e := rfl

/-- A sequence of checks succeeds exactly when its first part does and the rest does on what that part gives. -/
theorem Check.bind_eq_ok {α β : Type} {x : Check α} {f : α → Check β} {b : β} :
    (x >>= f) = .ok b ↔ ∃ a, x = .ok a ∧ f a = .ok b := by
  cases x <;> simp

/-! ### Checked accesses -/

theorem State.memRead_in {s : State} {addr : Nat} (h : addr < 256) :
    s.memRead addr = .ok (s.byteAt addr) := if_pos h

theorem State.memRead_out {s : State} {addr : Nat} (h : 256 ≤ addr) :
    s.memRead addr = .error (.outOfBoundsAccess .memoryAddress addr) := if_neg (Nat.not_lt.2 h)

theorem State.memRead_eq_ok {s : State} {addr : Nat} {v : Byte} :
    s.memRead addr = .ok v ↔ addr < 256 ∧ s.byteAt addr = v := by
  unfold State.memRead; split <;> simp [*]

/-- A byte is always an address: the read at a register's value never raises. -/
theorem State.memRead_byte (s : State) (v : Byte) : s.memRead v.toNat = .ok (s.byteAt v.toNat) :=
  State.memRead_in v.isLt

/-- A byte is always an address: the write at a register's value never raises. -/
theorem State.memWrite_byte (s : State) (a v : Byte) : s.memWrite a.toNat v = .ok (s.setByte a.toNat v) := by
  have := a.isLt
  unfold State.memWrite
  rw [if_neg (by simp only [Config.memSize] at *; omega)]
  rfl

theorem State.operandRead_in {s : State} {k : Nat} (h : s.pc.toNat + k < 256) :
    s.operandRead k = .ok () := by
  simp [State.operandRead, State.memRead_in h]

theorem State.operandRead_out {s : State} {k : Nat} (h : 256 ≤ s.pc.toNat + k) :
    s.operandRead k = .error (.outOfBoundsAccess .memoryAddress (s.pc.toNat + k : Nat)) := by
  simp [State.operandRead, State.memRead_out h]

theorem State.operandRead_eq_ok {s : State} {k : Nat} :
    s.operandRead k = .ok () ↔ s.pc.toNat + k < 256 := by
  by_cases h : s.pc.toNat + k < 256
  · simp [State.operandRead_in h, h]
  · simp [State.operandRead_out (by omega : 256 ≤ s.pc.toNat + k), h]

theorem State.engineReads_nonAlu {s : State} {ir : Byte} (h : opIsAlu ir = false) : s.engineReads ir = .ok () := by
  simp [State.engineReads, h]

theorem State.engineReads_alu {s : State} {ir : Byte} (h : opIsAlu ir = true) :
    s.engineReads ir = (do s.operandRead 1; s.operandRead 2) := by
  simp [State.engineReads, h]

theorem State.engineReads_in {s : State} (ir : Byte) (h : s.pc.toNat + 2 < 256) :
    s.engineReads ir = .ok () := by
  unfold State.engineReads
  split
  · rw [State.operandRead_in (by omega), Check.ok_bind, State.operandRead_in h]
  · rfl

theorem State.handlerReads_one (s : State) : s.handlerReads 1 = s.operandRead 1 := rfl

theorem State.handlerReads_in {s : State} {n : Nat} (h : s.pc.toNat + n < 256) :
    s.handlerReads n = .ok () := by
  induction n with
  | zero => rfl
  | succ n ih => rw [State.handlerReads, ih (by omega), Check.ok_bind, State.operandRead_in h]

theorem regIndex_eq_ok {b : Byte} {r : RegIdx} : regIndex b = .ok r ↔ b.toNat = r.val := by
  unfold regIndex
  split
  · simp [Fin.ext_iff]
  · have := r.isLt; simp at *; omega

theorem regIndex_in {b : Byte} (h : b.toNat < 8) : regIndex b = .ok ⟨b.toNat, h⟩ := dif_pos h

theorem regIndex_out {b : Byte} (h : 8 ≤ b.toNat) :
    regIndex b = .error (.outOfBoundsAccess .registerIndex b.toNat) := dif_neg (Nat.not_lt.2 h)

theorem spDown_zero : spDown 0 = .error (.outOfBoundsAccess .stackPointer (-1)) := rfl

theorem spDown_eq_ok {sp nsp : Byte} : spDown sp = .ok nsp ↔ sp.toNat = nsp.toNat + 1 := by
  have h1 : sp.toNat < 256 := sp.isLt
  have h2 : nsp.toNat < 256 := nsp.isLt
  unfold spDown
  split
  · simp; omega
  · simp only [Except.ok.injEq, ← BitVec.toNat_inj, BitVec.toNat_ofNat]; omega

theorem spUp_eq_ok {v nsp : Byte} : spUp v = .ok nsp ↔ nsp.toNat = v.toNat + 1 := by
  have h1 : v.toNat < 256 := v.isLt
  have h2 : nsp.toNat < 256 := nsp.isLt
  unfold spUp
  simp only [Config.memSize]
  split
  · simp; omega
  · simp only [Except.ok.injEq, ← BitVec.toNat_inj, BitVec.toNat_ofNat]; omega

theorem spUp_max : spUp 255 = .error (.outOfBoundsAccess .stackPointer 256) := rfl

theorem State.pushByte_eq (s : State) (nsp v : Byte) :
    s.pushByte nsp v = .ok ((s.setReg spIndex nsp).setByte nsp.toNat v) :=
  State.memWrite_byte _ nsp v

theorem State.jumpTo_eq_ok {s t : State} {r : Byte} :
    s.jumpTo r = .ok t ↔
      s.pc.toNat + 1 < 256 ∧ ∃ rr : RegIdx, r.toNat = rr.val ∧ t = s.setPc (targetOf (s.reg rr)) := by
  simp only [State.jumpTo, State.handlerReads_one, Check.bind_eq_ok, regIndex_eq_ok, Except.ok.injEq]
  exact ⟨fun ⟨_, h, rr, hr, ht⟩ => ⟨State.operandRead_eq_ok.1 h, rr, hr, ht.symm⟩,
    fun ⟨h, rr, hr, ht⟩ => ⟨(), State.operandRead_eq_ok.2 h, rr, hr, ht.symm⟩⟩

/-! ### The cycle -/

/-- A cycle always answers a next state. -/
theorem State.cycle_next (s : State) (m : Mnemonic) (h : Check State) : ∃ t, s.cycle m h = .next t := by
  unfold State.cycle
  split
  · exact ⟨_, rfl⟩
  · split <;> exact ⟨_, rfl⟩

/-- Everything a cycle can do: it takes a fault in the state it started from, or the handler completes and the engine
advances. -/
theorem State.cycle_cases {s t : State} {m : Mnemonic} {h : Check State} (hc : s.cycle m h = .next t) :
    (∃ f, t = s.raise f) ∨
      ∃ u, s.engineReads (opcodeOf m) = .ok () ∧ h = .ok u ∧ t = u.engineAdvance (opcodeOf m) := by
  unfold State.cycle at hc
  split at hc
  · exact .inl ⟨_, by simpa using hc.symm⟩
  · split at hc
    · exact .inl ⟨_, by simpa using hc.symm⟩
    · exact .inr ⟨_, ‹_›, rfl, by simpa using hc.symm⟩

theorem State.cycle_ok {s u : State} {m : Mnemonic} {h : Check State} (h1 : s.engineReads (opcodeOf m) = .ok ())
    (h2 : h = .ok u) : s.cycle m h = .next (u.engineAdvance (opcodeOf m)) := by
  simp [State.cycle, h1, h2]

theorem State.cycle_error {s : State} {m : Mnemonic} {h : Check State} {f : Raise}
    (h1 : s.engineReads (opcodeOf m) = .ok ()) (h2 : h = .error f) : s.cycle m h = .next (s.raise f) := by
  simp [State.cycle, h1, h2]

theorem State.cycle_reads_error {s : State} {m : Mnemonic} {h : Check State} {f : Raise}
    (h1 : s.engineReads (opcodeOf m) = .error f) : s.cycle m h = .next (s.raise f) := by
  simp [State.cycle, h1]

/-- Everything a binary ALU operation can do. -/
theorem State.aluBinary_cases {s t : State} {m : Mnemonic} {f : Nat → Nat → Check Nat} {a b : Byte}
    (h : s.aluBinary m f a b = .next t) :
    (∃ g, t = s.raise g) ∨
      ∃ (ra rb : RegIdx) (v : Nat), a.toNat = ra.val ∧ b.toNat = rb.val ∧
        f (s.reg ra).toNat (s.reg rb).toNat = .ok v ∧
        t = (s.setReg ra (low8 v)).engineAdvance (opcodeOf m) := by
  obtain hf | ⟨u, -, hu, rfl⟩ := State.cycle_cases h
  · exact .inl hf
  · simp only [Check.bind_eq_ok, regIndex_eq_ok] at hu
    obtain ⟨ra, ha, rb, hb, v, hv, hu⟩ := hu
    cases hu
    exact .inr ⟨ra, rb, v, ha, hb, hv, rfl⟩

end Sys2Proof.Machine
end

