-- ==== Sys2Proof/Laws/Exec.lean ====
section
/-! SUPPORT. One inversion lemma per instruction outside the binary ALU shape (`State.aluBinary_cases` covers that one):
the instruction takes a fault in the state it started from, or it completes in the state the lemma names. -/

namespace Sys2Proof.Machine

theorem execNot_cases {a : Byte} {s t : State} (h : execNot a s = .next t) :
    (∃ f, t = s.raise f) ∨ ∃ ra : RegIdx, a.toNat = ra.val ∧
      t = (s.setReg ra (low8 (255 - (s.reg ra).toNat))).engineAdvance (opcodeOf .not) := by
  obtain hf | ⟨u, -, hu, rfl⟩ := State.cycle_cases h
  · exact .inl hf
  · simp only [Check.bind_eq_ok, regIndex_eq_ok, Except.ok.injEq] at hu
    obtain ⟨ra, ha, rfl⟩ := hu
    exact .inr ⟨ra, ha, rfl⟩

theorem execCmp_cases {a b : Byte} {s t : State} (h : execCmp a b s = .next t) :
    (∃ f, t = s.raise f) ∨ ∃ ra rb : RegIdx, a.toNat = ra.val ∧ b.toNat = rb.val ∧
      t = (s.setFlags (compareFlags (s.reg ra) (s.reg rb))).engineAdvance (opcodeOf .cmp) := by
  obtain hf | ⟨u, -, hu, rfl⟩ := State.cycle_cases h
  · exact .inl hf
  · simp only [Check.bind_eq_ok, regIndex_eq_ok, Except.ok.injEq] at hu
    obtain ⟨ra, ha, rb, hb, rfl⟩ := hu
    exact .inr ⟨ra, rb, ha, hb, rfl⟩

theorem execHlt_eq (s : State) : execHlt s = .next ((s.stop .halted).engineAdvance (opcodeOf .hlt)) := rfl

theorem execLdi_cases {r imm : Byte} {s t : State} (h : execLdi r imm s = .next t) :
    (∃ f, t = s.raise f) ∨ ∃ rr : RegIdx, r.toNat = rr.val ∧ t = (s.setReg rr imm).engineAdvance (opcodeOf .ldi) := by
  obtain hf | ⟨u, -, hu, rfl⟩ := State.cycle_cases h
  · exact .inl hf
  · simp only [Check.bind_eq_ok, regIndex_eq_ok, Except.ok.injEq] at hu
    obtain ⟨-, -, rr, hr, rfl⟩ := hu
    exact .inr ⟨rr, hr, rfl⟩

theorem execPrn_cases {r : Byte} {s t : State} (h : execPrn r s = .next t) :
    (∃ f, t = s.raise f) ∨ ∃ rr : RegIdx, r.toNat = rr.val ∧
      t = (s.emit (s.reg rr)).engineAdvance (opcodeOf .prn) := by
  obtain hf | ⟨u, -, hu, rfl⟩ := State.cycle_cases h
  · exact .inl hf
  · simp only [Check.bind_eq_ok, regIndex_eq_ok, Except.ok.injEq] at hu
    obtain ⟨-, -, rr, hr, rfl⟩ := hu
    exact .inr ⟨rr, hr, rfl⟩

theorem execSt_cases {a b : Byte} {s t : State} (h : execSt a b s = .next t) :
    (∃ f, t = s.raise f) ∨ ∃ ra rb : RegIdx, a.toNat = ra.val ∧ b.toNat = rb.val ∧
      t = (s.setByte (s.reg ra).toNat (s.reg rb)).engineAdvance (opcodeOf .st) := by
  obtain hf | ⟨u, -, hu, rfl⟩ := State.cycle_cases h
  · exact .inl hf
  · simp only [Check.bind_eq_ok, regIndex_eq_ok, State.memWrite_byte, Except.ok.injEq] at hu
    obtain ⟨-, -, ra, ha, rb, hb, rfl⟩ := hu
    exact .inr ⟨ra, rb, ha, hb, rfl⟩

theorem execPush_cases {r : Byte} {s t : State} (h : execPush r s = .next t) :
    (∃ f, t = s.raise f) ∨ ∃ (rr : RegIdx) (nsp : Byte), r.toNat = rr.val ∧ spDown s.sp = .ok nsp ∧
      t = ((s.setReg spIndex nsp).setByte nsp.toNat (s.regAfterSp nsp rr)).engineAdvance (opcodeOf .push) := by
  obtain hf | ⟨u, -, hu, rfl⟩ := State.cycle_cases h
  · exact .inl hf
  · simp only [Check.bind_eq_ok, regIndex_eq_ok, State.pushByte_eq, Except.ok.injEq] at hu
    obtain ⟨-, -, rr, hr, nsp, hn, rfl⟩ := hu
    exact .inr ⟨rr, nsp, hr, hn, rfl⟩

theorem execPop_cases {r : Byte} {s t : State} (h : execPop r s = .next t) :
    (∃ f, t = s.raise f) ∨ ∃ (rr : RegIdx) (nsp : Byte), r.toNat = rr.val ∧
      spUp (if rr = spIndex then s.byteAt s.sp.toNat else s.sp) = .ok nsp ∧
      t = ((if rr = spIndex then s else s.setReg rr (s.byteAt s.sp.toNat)).setReg spIndex nsp).engineAdvance
        (opcodeOf .pop) := by
  obtain hf | ⟨u, -, hu, rfl⟩ := State.cycle_cases h
  · exact .inl hf
  · simp only [Check.bind_eq_ok, regIndex_eq_ok, State.memRead_byte, Except.ok.injEq, exists_eq_left'] at hu
    obtain ⟨-, -, rr, hr, nsp, hn, rfl⟩ := hu
    exact .inr ⟨rr, nsp, hr, hn, rfl⟩

theorem execCall_cases {r : Byte} {s t : State} (h : execCall r s = .next t) :
    (∃ f, t = s.raise f) ∨ ∃ (rr : RegIdx) (ret nsp : Byte), r.toNat = rr.val ∧ returnAddress s.pc = .ok ret ∧
      spDown s.sp = .ok nsp ∧
      t = ((s.setReg spIndex nsp).setByte nsp.toNat ret).setPc (targetOf (s.regAfterSp nsp rr)) := by
  obtain hf | ⟨u, -, hu, rfl⟩ := State.cycle_cases h
  · exact .inl hf
  · simp only [Check.bind_eq_ok, regIndex_eq_ok, State.pushByte_eq, Except.ok.injEq, exists_eq_left'] at hu
    obtain ⟨-, -, rr, hr, ret, hret, nsp, hn, rfl⟩ := hu
    exact .inr ⟨rr, ret, nsp, hr, hret, hn, rfl⟩

theorem returnAddress_eq_ok {ia : PcWord} {ret : Byte} : returnAddress ia = .ok ret ↔ ret.toNat = ia.toNat + 2 := by
  have h1 := Byte.toNat_lt ret
  unfold returnAddress
  simp only [Config.memSize]
  split
  · simp only [Except.ok.injEq, ← BitVec.toNat_inj, BitVec.toNat_ofNat]; omega
  · simp; omega

theorem execRet_cases {s t : State} (h : execRet s = .next t) :
    (∃ f, t = s.raise f) ∨ ∃ nsp : Byte, spUp s.sp = .ok nsp ∧
      t = (s.setReg spIndex nsp).setPc (targetOf (s.byteAt s.sp.toNat)) := by
  obtain hf | ⟨u, -, hu, rfl⟩ := State.cycle_cases h
  · exact .inl hf
  · simp only [Check.bind_eq_ok, State.memRead_byte, Except.ok.injEq, exists_eq_left'] at hu
    obtain ⟨nsp, hn, rfl⟩ := hu
    exact .inr ⟨nsp, hn, rfl⟩

theorem execJmp_cases {r : Byte} {s t : State} (h : execJmp r s = .next t) :
    (∃ f, t = s.raise f) ∨ ∃ rr : RegIdx, r.toNat = rr.val ∧ t = s.setPc (targetOf (s.reg rr)) := by
  obtain hf | ⟨u, -, hu, rfl⟩ := State.cycle_cases h
  · exact .inl hf
  · exact .inr (State.jumpTo_eq_ok.1 hu).2

theorem execJeq_cases {r : Byte} {s t : State} (h : execJeq r s = .next t) :
    (∃ f, t = s.raise f) ∨
      (s.equalFlag = true ∧ ∃ rr : RegIdx, r.toNat = rr.val ∧ t = s.setPc (targetOf (s.reg rr))) ∨
      (s.equalFlag = false ∧ t = s.setPc (s.pc + 2)) := by
  obtain hf | ⟨u, -, hu, rfl⟩ := State.cycle_cases h
  · exact .inl hf
  · cases he : s.equalFlag <;> simp only [he, if_true, Bool.false_eq_true, if_false] at hu
    · cases hu; exact .inr (.inr ⟨rfl, rfl⟩)
    · exact .inr (.inl ⟨rfl, (State.jumpTo_eq_ok.1 hu).2⟩)

theorem execJne_cases {r : Byte} {s t : State} (h : execJne r s = .next t) :
    (∃ f, t = s.raise f) ∨
      (s.equalFlag = false ∧ ∃ rr : RegIdx, r.toNat = rr.val ∧ t = s.setPc (targetOf (s.reg rr))) ∨
      (s.equalFlag = true ∧ t = s.setPc (s.pc + 2)) := by
  obtain hf | ⟨u, -, hu, rfl⟩ := State.cycle_cases h
  · exact .inl hf
  · cases he : s.equalFlag <;> simp only [he, if_true, Bool.false_eq_true, if_false] at hu
    · exact .inr (.inl ⟨rfl, (State.jumpTo_eq_ok.1 hu).2⟩)
    · cases hu; exact .inr (.inr ⟨rfl, rfl⟩)

/-- Every meaning is one engine cycle around the instruction's own handler. -/
theorem exec_eq_cycle (i : Instr) (s : State) : ∃ handler, exec i s = s.cycle i.mnemonic handler := by
  cases i <;>
    simp only [exec, execAdd, execMul, execMod, execCmp, execAnd, execNot, execOr, execXor, execShl, execShr, execHlt,
      execLdi, execSt, execPush, execPop, execPrn, execCall, execRet, execJmp, execJeq, execJne, State.aluBinary,
      Instr.mnemonic] <;>
    exact ⟨_, rfl⟩

/-- Every instruction always answers a next state. -/
theorem exec_next (i : Instr) (s : State) : ∃ t, exec i s = .next t := by
  obtain ⟨h, hh⟩ := exec_eq_cycle i s
  rw [hh]
  exact State.cycle_next s _ h

/-- Everything one step can do: there is none while HALTED; otherwise it takes a fault, or runs the instruction that the
bytes at `pc` encode, `pc` being an address. -/
theorem step_cases {s t : State} (h : step s = .next t) :
    s.running = true ∧
      ((∃ f, t = s.raise f) ∨ (s.pc.toNat < 256 ∧ ∃ i, decodeBytes s.window = .ok i ∧ exec i s = .next t)) := by
  unfold step State.fetch at h
  cases hr : s.running with
  | false => simp [hr] at h
  | true =>
    refine ⟨rfl, ?_⟩
    by_cases hp : s.pc.toNat < 256
    · cases hd : decodeBytes s.window with
      | ok i => exact .inr ⟨hp, i, rfl, by simpa [hr, State.memRead_in hp, hd] using h⟩
      | error e =>
        left
        simp only [hr, State.memRead_in hp, hd, if_true, Host.Outcome.next.injEq] at h
        subst h
        cases e with
        | unknownOpcode ir => exact ⟨_, rfl⟩
        | unsupportedALUOperation ir =>
          unfold State.rejectOpcode
          dsimp only
          split <;> exact ⟨_, rfl⟩
    · left
      simp only [hr, State.memRead_out (by omega : 256 ≤ s.pc.toNat), if_true, Host.Outcome.next.injEq] at h
      exact ⟨_, h.symm⟩

end Sys2Proof.Machine
end

