-- ==== Sys2Proof/Laws/PerInstr.lean ====
section
/-! SUPPORT. The family EncodedLength: an instruction's bytes are its opcode byte and as many operand bytes as that
byte's count field says (`spec/30_encoding.md` rules R50, R51, R57). -/

namespace Sys2Proof.Laws.EncodedLength

/-- The encoding of `i` is `1 + opcode[7:6]` bytes long, starts with the opcode byte, and is 1 to 3 bytes. -/
def Statement (i : Instr) : Prop :=
  (encode i).length = 1 + opCount (opcodeOf i.mnemonic) ∧ (encode i).head? = some (opcodeOf i.mnemonic) ∧
    (encode i).length ≤ 3

/-- The length of any encoding, from the format of its mnemonic. -/
theorem of_format (i : Instr) : Statement i := by
  have h := i.mnemonic.format.operandBytes_le
  refine ⟨?_, rfl, ?_⟩ <;> simp only [encode, List.length_cons, Instr.operands_length, opCount_opcodeOf] <;> omega

theorem add (a b : Byte) : Statement (.add a b) := of_format _
theorem mul (a b : Byte) : Statement (.mul a b) := of_format _
theorem mod (a b : Byte) : Statement (.mod a b) := of_format _
theorem cmp (a b : Byte) : Statement (.cmp a b) := of_format _
theorem and (a b : Byte) : Statement (.and a b) := of_format _
theorem not (a : Byte) : Statement (.not a) := of_format _
theorem or (a b : Byte) : Statement (.or a b) := of_format _
theorem xor (a b : Byte) : Statement (.xor a b) := of_format _
theorem shl (a b : Byte) : Statement (.shl a b) := of_format _
theorem shr (a b : Byte) : Statement (.shr a b) := of_format _
theorem hlt : Statement .hlt := of_format _
theorem ldi (r imm : Byte) : Statement (.ldi r imm) := of_format _
theorem st (a b : Byte) : Statement (.st a b) := of_format _
theorem push (r : Byte) : Statement (.push r) := of_format _
theorem pop (r : Byte) : Statement (.pop r) := of_format _
theorem prn (r : Byte) : Statement (.prn r) := of_format _
theorem call (r : Byte) : Statement (.call r) := of_format _
theorem ret : Statement .ret := of_format _
theorem jmp (r : Byte) : Statement (.jmp r) := of_format _
theorem jeq (r : Byte) : Statement (.jeq r) := of_format _
theorem jne (r : Byte) : Statement (.jne r) := of_format _

end Sys2Proof.Laws.EncodedLength
end

