-- ==== Sys2Proof/Laws/Run.lean ====
section
/-! SUPPORT. `run` cycle by cycle, and the inductions over a run, once: what every step keeps holds along the run, and a
run that ends has one final state. -/

namespace Sys2Proof.Machine

@[simp] theorem run_zero (s : State) : run 0 s = s := rfl

@[simp] theorem run_halted {s : State} (h : s.running = false) (n : Nat) : run n s = s := by
  cases n <;> simp [run, h]

/-- A step that answers a next state is the first cycle of the run. -/
theorem run_succ {s t : State} (h : step s = .next t) (n : Nat) : run (n + 1) s = run n t := by
  simp [run, (step_cases h).1, h]

/-- While RUNNING there is always a next cycle (R70). -/
theorem step_next {s : State} (h : s.running = true) : ∃ t, step s = .next t := by
  unfold step
  cases hf : s.fetch with
  | noCycle =>
    unfold State.fetch at hf
    rw [if_pos h] at hf
    split at hf
    · cases hf
    · split at hf <;> cases hf
  | stopped t => exact ⟨t, rfl⟩
  | instruction i => exact exec_next i s

/-- The cycles of a run may be asked for in two parts. -/
theorem run_add (m n : Nat) (s : State) : run (m + n) s = run n (run m s) := by
  induction m generalizing s with
  | zero => simp
  | succ m ih =>
    cases hr : s.running with
    | false => simp [hr]
    | true =>
      obtain ⟨t, ht⟩ := step_next hr
      rw [Nat.succ_add, run_succ ht, run_succ ht, ih]

theorem State.reaches_refl (s : State) : s.Reaches s := ⟨0, rfl⟩

theorem State.Reaches.trans {s t u : State} : s.Reaches t → t.Reaches u → s.Reaches u := by
  rintro ⟨m, rfl⟩ ⟨n, rfl⟩
  exact ⟨m + n, run_add m n s⟩

theorem State.reaches_of_step {s t : State} (h : step s = .next t) : s.Reaches t := ⟨1, run_succ h 0⟩

/-- What every step keeps holds in every state of a run that starts with it. -/
theorem State.Reaches.keeps {P : State → Prop} (hstep : ∀ s t, P s → step s = .next t → P t) {s t : State}
    (h : s.Reaches t) (hs : P s) : P t := by
  obtain ⟨n, rfl⟩ := h
  induction n generalizing s with
  | zero => exact hs
  | succ n ih =>
    cases hr : s.running with
    | false => simpa [hr] using hs
    | true =>
      obtain ⟨t, ht⟩ := step_next hr
      rw [run_succ ht]
      exact ih (hstep s t hs ht)

/-- What holds after every accepted load and is kept by every step holds in every reachable state. -/
theorem State.Reachable.of_kept {P : State → Prop} (hload : ∀ p s, load p = .next s → P s)
    (hstep : ∀ s t, P s → step s = .next t → P t) {t : State} (h : t.Reachable) : P t := by
  obtain ⟨p, s, hp, hr⟩ := h
  exact hr.keeps hstep (hload p s hp)

/-- A run that ends has one final state, however many cycles are asked for. -/
theorem State.RunEnds.unique {s t u : State} : s.RunEnds t → s.RunEnds u → t = u := by
  rintro ⟨⟨m, rfl⟩, hm⟩ ⟨⟨n, rfl⟩, hn⟩
  rw [← run_halted hm n, ← run_add, Nat.add_comm, run_add, run_halted hn]

/-- A run either ends or goes on forever (R189). -/
theorem State.runEnds_or_runsForever (s : State) : (∃ t, s.RunEnds t) ∨ s.RunsForever := by
  by_cases h : ∃ t, s.RunEnds t
  · exact .inl h
  · refine .inr fun t ht => ?_
    cases hr : t.running with
    | true => rfl
    | false => exact absurd ⟨t, ht, hr⟩ h

/-- A cycle that leads back to its own state is repeated forever (R78: a JMP to its own address). -/
theorem State.runsForever_of_step_self {s : State} (h : step s = .next s) : s.RunsForever := by
  intro t ht
  have : t = s := ht.keeps (P := fun u => u = s) (fun u v hu hv => by
    subst hu; exact Host.Outcome.next.inj (hv.symm.trans h)) rfl
  rw [this]
  exact (step_cases h).1

end Sys2Proof.Machine
end

