-- ==== Sys2Proof/Laws/Safety.lean ====
section
/-! SUPPORT. What a taken fault records, and how an update of one item meets the invariant. -/

namespace Sys2Proof.Machine

@[simp] theorem Raise.isFault_at (f : Raise) (ia : PcWord) : (f.at ia).isFault = true := by cases f <;> rfl

@[simp] theorem Raise.at_ne_none (f : Raise) (ia : PcWord) : f.at ia ≠ .none := by cases f <;> simp [Raise.at]

@[simp] theorem Raise.at_ne_halted (f : Raise) (ia : PcWord) : f.at ia ≠ .halted := by cases f <;> simp [Raise.at]

theorem compareFlags_cases (va vb : Byte) :
    compareFlags va vb = flagOnly flE ∨ compareFlags va vb = flagOnly flG ∨ compareFlags va vb = flagOnly flL := by
  unfold compareFlags
  split
  · exact .inl rfl
  · split
    · exact .inr (.inl rfl)
    · exact .inr (.inr rfl)

theorem targetOf_toNat (v : Byte) : (targetOf v).toNat = v.toNat := by
  have := Byte.toNat_lt v
  simp only [targetOf, BitVec.toNat_setWidth]
  exact Nat.mod_eq_of_lt (by omega)

end Sys2Proof.Machine
end

