-- ==== Sys2Proof/Tests/Slice0.lean ====
section
/-! SUPPORT. The model's own tests: well-formedness, decoding of words written out from `spec/30_encoding.md`, one vector
of `spec/95_test_vectors.md` per instruction (named by the vector), and for each statement of the obligations a state and
operands that meet its hypotheses at a boundary. Every expected value is the spec's. -/

namespace Sys2Proof.Tests

open Sys2Proof.Machine Sys2Proof.Claims

/-! ### Helpers -/

/-- What `f` sees in the next state, if there is one. -/
def look {α : Type} (o : Result) (f : State → α) : Option α :=
  match o with
  | .next t => some (f t)
  | .fault _ => none
  | .refused _ => none

/-- The reset state with `pc`, some registers and some bytes changed. -/
def start (pc : PcWord) (regs : List (RegIdx × Byte)) (bytes : List (Nat × Byte)) : State :=
  let s := regs.foldl (fun s p => s.setReg p.1 p.2) (State.reset.setPc pc)
  bytes.foldl (fun s p => s.setByte p.1 p.2) s

/-- The reset state with instruction bytes at address 0 and some registers changed. -/
def at0 (bs : List Byte) (regs : List (RegIdx × Byte)) : State := (start 0 regs []).storeBytes 0 bs

/-- What a vector lists: a register, `pc`, the run state. -/
def view (r : RegIdx) (t : State) : Byte × Nat × HaltReason := (t.reg r, t.pc.toNat, t.haltReason)

/-! ### Well-formedness: an ill-formed term for each check -/

theorem test_wf_two_registers :
    (Instr.add 7 0).wellFormed = true ∧ (Instr.add 8 0).wellFormed = false ∧ (Instr.add 0 8).wellFormed = false ∧
      (Instr.st 0 255).wellFormed = false := by decide

theorem test_wf_one_register :
    (Instr.push 7).wellFormed = true ∧ (Instr.push 8).wellFormed = false ∧ (Instr.not 8).wellFormed = false ∧
      (Instr.jeq 200).wellFormed = false := by decide

theorem test_wf_immediate :
    (Instr.ldi 7 255).wellFormed = true ∧ (Instr.ldi 8 0).wellFormed = false ∧ Instr.ret.wellFormed = true := by decide

/-! ### Decoding: each instruction's word written out from R55's binary column and R52's formats -/

theorem test_decode_alu :
    decodeBytes [0b10100000, 1, 2] = .ok (.add 1 2) ∧ decodeBytes [0b10100010, 1, 2] = .ok (.mul 1 2) ∧
    decodeBytes [0b10100100, 1, 2] = .ok (.mod 1 2) ∧ decodeBytes [0b10100111, 1, 2] = .ok (.cmp 1 2) ∧
    decodeBytes [0b10101000, 1, 2] = .ok (.and 1 2) ∧ decodeBytes [0b01101001, 1, 2] = .ok (.not 1) ∧
    decodeBytes [0b10101010, 1, 2] = .ok (.or 1 2) ∧ decodeBytes [0b10101011, 1, 2] = .ok (.xor 1 2) ∧
    decodeBytes [0b10101100, 1, 2] = .ok (.shl 1 2) ∧ decodeBytes [0b10101101, 1, 2] = .ok (.shr 1 2) := by
  refine ⟨rfl, rfl, rfl, rfl, rfl, rfl, rfl, rfl, rfl, rfl⟩

theorem test_decode_handlers :
    decodeBytes [0b00000001, 1, 2] = .ok .hlt ∧ decodeBytes [0b10000010, 1, 2] = .ok (.ldi 1 2) ∧
    decodeBytes [0b10000100, 1, 2] = .ok (.st 1 2) ∧ decodeBytes [0b01000101, 1, 2] = .ok (.push 1) ∧
    decodeBytes [0b01000110, 1, 2] = .ok (.pop 1) ∧ decodeBytes [0b01000111, 1, 2] = .ok (.prn 1) ∧
    decodeBytes [0b01010000, 1, 2] = .ok (.call 1) ∧ decodeBytes [0b00010001, 1, 2] = .ok .ret ∧
    decodeBytes [0b01010100, 1, 2] = .ok (.jmp 1) ∧ decodeBytes [0b01010101, 1, 2] = .ok (.jeq 1) ∧
    decodeBytes [0b01010110, 1, 2] = .ok (.jne 1) := by
  refine ⟨rfl, rfl, rfl, rfl, rfl, rfl, rfl, rfl, rfl, rfl, rfl⟩

/-- The LS-8 bytes that are no instructions here (R59), by name. -/
theorem test_decode_rejects :
    decodeBytes [0x00] = .error (.unknownOpcode 0x00) ∧ decodeBytes [0x83, 0, 1] = .error (.unknownOpcode 0x83) ∧
    decodeBytes [0x87, 0, 1] = .error (.unknownOpcode 0x87) ∧
    decodeBytes [0xA1, 9, 9] = .error (.unsupportedALUOperation 0xA1) ∧
    decodeBytes [0x65, 0] = .error (.unsupportedALUOperation 0x65) ∧
    decodeBytes [0xC0] = .error (.unknownOpcode 0xC0) ∧
    decodeBytes [0xFF, 0, 0] = .error (.unsupportedALUOperation 0xFF) := by
  refine ⟨rfl, rfl, rfl, rfl, rfl, rfl, rfl⟩

/-- The opcode table's rows, as words of 8 or 24 bits with zero operands, decode to their instructions. -/
theorem test_table_words : ∀ m ∈ Mnemonic.all,
    decodeTableWord 8 (opcodeOf m).toNat = some (m.withOperands 0 0) ∧
      decodeTableWord 24 (opcodeOf m).toNat = some (m.withOperands 0 0) := by decide

/-- Bit 8 of a table word is bit 0 of the second byte; bits at and above `nbits` count as 0. -/
theorem test_table_operands :
    decodeTableWord 24 0x0201A0 = some (.add 1 2) ∧ decodeTableWord 16 0x0201A0 = some (.add 1 0) := by decide

/-- A placed table word is what the first step after reset runs. -/
theorem test_placed_word_runs : ∀ m ∈ Mnemonic.all,
    look (step (State.reset.withFetchWord 24 (opcodeOf m).toNat)) id =
      look (exec (m.withOperands 0 0) (State.reset.withFetchWord 24 (opcodeOf m).toNat)) id := by decide

/-! ### One vector per instruction (`95_test_vectors.md` section 2), each one cycle of the machine -/

theorem test_V_ALU_1_add :
    look (step (at0 [0xA0, 0, 1] [(0, 255), (1, 2)])) (view 0) = some ((1, 3, .none)) := by decide

theorem test_V_ALU_11_mul :
    look (step (at0 [0xA2, 0, 1] [(0, 200), (1, 3)])) (view 0) = some ((88, 3, .none)) := by decide

theorem test_V_ALU_12_mod :
    look (step (at0 [0xA4, 0, 1] [(0, 17), (1, 5)])) (view 0) = some ((2, 3, .none)) := by decide

theorem test_V_ALU_14_mod_zero :
    look (step (at0 [0xA4, 0, 1] [(0, 17), (1, 0)])) (view 0) = some ((17, 0, .divisionByZero 0)) := by decide

theorem test_V_LOG_1_and :
    look (step (at0 [0xA8, 0, 1] [(0, 0xCC), (1, 0xAA)])) (view 0) = some ((0x88, 3, .none)) := by decide

theorem test_V_LOG_2_or :
    look (step (at0 [0xAA, 0, 1] [(0, 0xCC), (1, 0xAA)])) (view 0) = some ((0xEE, 3, .none)) := by decide

theorem test_V_LOG_3_xor :
    look (step (at0 [0xAB, 0, 1] [(0, 0xCC), (1, 0xAA)])) (view 0) = some ((0x66, 3, .none)) := by decide

theorem test_V_LOG_6_not : look (step (at0 [0x69, 0, 0xFF] [(0, 0)])) (view 0) = some ((0xFF, 2, .none)) := by decide

theorem test_V_SH_5_shl :
    look (step (at0 [0xAC, 0, 1] [(0, 0x81), (1, 1)])) (view 0) = some ((0x02, 3, .none)) := by decide

theorem test_V_SH_7_shl_by_255 :
    look (step (at0 [0xAC, 0, 1] [(0, 1), (1, 255)])) (view 0) = some ((0, 3, .none)) := by decide

theorem test_V_SH_13_shr :
    look (step (at0 [0xAD, 0, 1] [(0, 0x81), (1, 1)])) (view 0) = some ((0x40, 3, .none)) := by decide

theorem test_V_CMP_3_unsigned :
    look (step (at0 [0xA7, 0, 1] [(0, 0), (1, 255)])) (fun t => (t.fl, t.pc.toNat)) = some ((0b100, 3)) := by decide

theorem test_V_HLT_1 : look (step (at0 [0x01] [])) (view 7) = some ((0xF4, 1, .halted)) := by decide

theorem test_V_LDI_2 : look (step (at0 [0x82, 7, 0x10] [])) (view 7) = some ((0x10, 3, .none)) := by decide

theorem test_V_LDI_4 :
    look (step (at0 [0x82, 8, 1] [])) (view 0) = some ((0, 0, .outOfBoundsAccess .registerIndex 8 0)) := by decide

theorem test_V_PRN_2 : look (step (at0 [0x47, 7] [])) (fun t => (t.out, t.pc.toNat)) = some (([244], 2)) := by decide

theorem test_V_ST_1 :
    look (step (at0 [0x84, 0, 1] [(0, 0x20), (1, 0x2A)])) (fun t => (t.byteAt 0x20, t.pc.toNat)) = some ((0x2A, 3)) := by decide

theorem test_V_STK_4_push_r7 :
    look (step (at0 [0x45, 7] [])) (fun t => (t.byteAt 0xF3, view 7 t)) = some ((0xF3, 0xF3, 2, .none)) := by decide

theorem test_V_STK_5_push_at_0 :
    look (step (at0 [0x45, 1] [(7, 0), (1, 5)])) (view 7) = some ((0, 0, .outOfBoundsAccess .stackPointer (-1) 0)) := by decide

theorem test_V_CALL_5_call_r7 :
    look (step (at0 [0x50, 7] [])) (fun t => (t.byteAt 0xF3, view 7 t)) = some ((2, 0xF3, 0xF3, .none)) := by decide

theorem test_V_RET_2 : look (step (at0 [0x11] [])) (view 7) = some ((0xF5, 0, .none)) := by decide

theorem test_V_JMP_1 : look (step (at0 [0x54, 3] [(3, 15)])) (fun t => t.pc.toNat) = some (15) := by decide

theorem test_V_JMP_6_jeq : look (step (at0 [0x55, 4] [(4, 27)])) (fun t => t.pc.toNat) = some (2) := by decide

theorem test_V_JMP_7_jne : look (step (at0 [0x56, 2] [(2, 9)])) (fun t => t.pc.toNat) = some (9) := by decide

theorem test_V_ENG_1 : look (step (at0 [0x00] [])) (view 7) = some ((0xF4, 0, .unknownOpcode 0 0)) := by decide

theorem test_V_ENG_2 :
    look (step (at0 [0xA1, 9, 9] [])) (view 7) = some ((0xF4, 0, .unsupportedALUOperation 0xA1 0)) := by decide

theorem test_V_ENG_9 :
    look (step (at0 [0xA0, 9, 8] [])) (view 7) = some ((0xF4, 0, .outOfBoundsAccess .registerIndex 9 0)) := by decide

theorem test_V_LOG_8_not_at_254 :
    look (step (start 254 [] [(254, 0x69)])) (view 0) =
      some ((0, 254, .outOfBoundsAccess .memoryAddress 256 254)) := by decide

theorem test_V_STK_2_pop :
    look (step (start 0 [(7, 0xF2)] [(0, 0x46), (1, 3), (0xF2, 7)])) (fun t => (t.reg 3, view 7 t)) =
      some ((7, 0xF3, 2, .none)) := by decide

theorem test_V_STK_9_pop_r7 :
    look (step (start 0 [(7, 0xF3)] [(0, 0x46), (1, 7), (0xF3, 255)])) (view 7) =
      some ((0xF3, 0, .outOfBoundsAccess .stackPointer 256 0)) := by decide

theorem test_V_CALL_2 :
    look (step (start 254 [(1, 9)] [(254, 0x50), (255, 1)])) (view 7) =
      some ((0xF4, 254, .outOfBoundsAccess .memoryAddress 256 254)) := by decide

theorem test_V_JMP_10_jeq_at_255 :
    look (step (start 255 [] [(255, 0x55)])) (view 7) =
      some ((0xF4, 257, .none)) := by decide

theorem test_V_ENG_3 :
    look (step (start 254 [] [(254, 0xA1), (255, 9)])) (view 7) =
      some ((0xF4, 254, .outOfBoundsAccess .memoryAddress 256 254)) := by decide

theorem test_V_ENG_7 :
    look (step (start 256 [] [])) (view 7) =
      some ((0xF4, 256, .outOfBoundsAccess .memoryAddress 256 256)) := by decide

/-- A HALTED machine has no step (R70), and a load of 257 bytes is refused (R184). -/
theorem test_refusals :
    step (State.reset.stop .halted) = .refused .halted ∧ load (List.replicate 257 0) = .refused .programTooLong :=
  ⟨rfl, if_neg (by rw [List.length_replicate]; decide)⟩

/-- A run ends with HLT and its final state stays: P1 of `95_test_vectors.md` section 3 takes 3 cycles, and more are not
made. -/
theorem test_run_P1 :
    let t := run 5 (at0 [0x82, 0, 8, 0x47, 0, 0x01] [])
    t = run 3 (at0 [0x82, 0, 8, 0x47, 0, 0x01] []) ∧ (t.out, view 0 t) = ([8], 8, 6, .halted) ∧ t.running = false := by
  decide

/-- `LDI R0,3; JMP R0` loops forever (R78): the JMP at address 3 leads back to its own state. -/
theorem test_run_loops :
    (at0 [0x82, 0, 3, 0x54, 0] []).Reaches (start 3 [(0, 3)] [(0, 0x82), (2, 3), (3, 0x54)]) ∧
      (start 3 [(0, 3)] [(0, 0x82), (2, 3), (3, 0x54)]).RunsForever :=
  ⟨⟨1, by decide⟩, State.runsForever_of_step_self (by rfl)⟩

/-- PRN's output in decimal (R20). -/
theorem test_output_text : ((State.reset.emit 244).emit 0).outputText = ["244", "0"] := by decide

/-! ### Witnesses: for each statement with hypotheses, a state and operands that meet them, at a boundary; where the
statement names a result, the result there as well -/

/-- The state with the highest `pc` at which a three-byte instruction lies in memory. -/
def hi3 : State := start 253 [(0, 255), (1, 2), (2, 8)] []

/-- The state with the highest `pc` at which a two-byte instruction lies in memory. -/
def hi2 : State := start 254 [(0, 255), (1, 2)] []

/-- Clauses of `TwoRegisterFaults` (AddRule, MulRule, ModRule, AndRule, OrRule, XorRule, ShlRule, ShrRule, CmpRule, StRule)
and of LdiRule: address 254 and 255, the first operand byte 8, the second operand byte 8. -/
theorem witness_TwoRegisterFaults :
    (254 ≤ (start 254 [] []).pc.toNat ∧ (start 254 [] []).pc.toNat ≤ 255) ∧ (start 255 [] []).pc.toNat ≤ 255 ∧
      (hi3.pc.toNat ≤ 253 ∧ 8 ≤ (8 : Byte).toNat) ∧
      (hi3.pc.toNat ≤ 253 ∧ (7 : Byte).toNat < 8 ∧ 8 ≤ (8 : Byte).toNat) := by decide

/-- Clauses of `OneRegisterFaults` (PrnRule, PushRule, PopRule, CallRule, JmpRule; with E 0 for JneRule; with E 1 for
JeqRule below). -/
theorem witness_OneRegisterFaults :
    (start 255 [] []).pc.toNat = 255 ∧ hi2.pc.toNat ≤ 254 ∧ 8 ≤ (8 : Byte).toNat ∧
      (start 255 [] []).fl.getLsbD 0 = false := by decide

theorem witness_AddRule :
    hi3.pc.toNat ≤ 253 ∧ (0 : Byte).toNat = (0 : RegIdx).val ∧ (1 : Byte).toNat = (1 : RegIdx).val ∧
      hi3.regs[(1 : RegIdx)] ≠ 0 ∧ look (exec (.add 0 1) hi3) (view 0) = some (1, 256, .none) := by decide

theorem witness_MulRule :
    hi3.pc.toNat ≤ 253 ∧ (0 : Byte).toNat = (0 : RegIdx).val ∧ (1 : Byte).toNat = (1 : RegIdx).val ∧
      hi3.regs[(1 : RegIdx)] ≠ 0 ∧ look (exec (.mul 0 1) hi3) (view 0) = some (254, 256, .none) := by decide

theorem witness_ModRule :
    hi3.pc.toNat ≤ 253 ∧ (0 : Byte).toNat = (0 : RegIdx).val ∧ (1 : Byte).toNat = (1 : RegIdx).val ∧
      hi3.regs[(1 : RegIdx)] ≠ 0 ∧ look (exec (.mod 0 1) hi3) (view 0) = some (1, 256, .none) := by decide

theorem witness_AndRule :
    hi3.pc.toNat ≤ 253 ∧ (0 : Byte).toNat = (0 : RegIdx).val ∧ (1 : Byte).toNat = (1 : RegIdx).val ∧
      hi3.regs[(1 : RegIdx)] ≠ 0 ∧ look (exec (.and 0 1) hi3) (view 0) = some (2, 256, .none) := by decide

theorem witness_OrRule :
    hi3.pc.toNat ≤ 253 ∧ (0 : Byte).toNat = (0 : RegIdx).val ∧ (1 : Byte).toNat = (1 : RegIdx).val ∧
      hi3.regs[(1 : RegIdx)] ≠ 0 ∧ look (exec (.or 0 1) hi3) (view 0) = some (255, 256, .none) := by decide

theorem witness_XorRule :
    hi3.pc.toNat ≤ 253 ∧ (0 : Byte).toNat = (0 : RegIdx).val ∧ (1 : Byte).toNat = (1 : RegIdx).val ∧
      hi3.regs[(1 : RegIdx)] ≠ 0 ∧ look (exec (.xor 0 1) hi3) (view 0) = some (253, 256, .none) := by decide

theorem witness_ShlRule :
    hi3.pc.toNat ≤ 253 ∧ (0 : Byte).toNat = (0 : RegIdx).val ∧ (1 : Byte).toNat = (1 : RegIdx).val ∧
      hi3.regs[(1 : RegIdx)] ≠ 0 ∧ look (exec (.shl 0 1) hi3) (view 0) = some (252, 256, .none) := by decide

theorem witness_ShrRule :
    hi3.pc.toNat ≤ 253 ∧ (0 : Byte).toNat = (0 : RegIdx).val ∧ (1 : Byte).toNat = (1 : RegIdx).val ∧
      hi3.regs[(1 : RegIdx)] ≠ 0 ∧ look (exec (.shr 0 1) hi3) (view 0) = some (63, 256, .none) := by decide

/-- The second clause of ShlRule and ShrRule: an amount of exactly 8. -/
theorem witness_shift_by_8 :
    hi3.pc.toNat ≤ 253 ∧ (2 : Byte).toNat = (2 : RegIdx).val ∧ 8 ≤ hi3.regs[(2 : RegIdx)].toNat ∧
      look (exec (.shl 0 2) hi3) (view 0) = some (0, 256, .none) ∧
      look (exec (.shr 0 2) hi3) (view 0) = some (0, 256, .none) := by decide

/-- The divisor clause of ModRule, and DivisionByZeroOnlyByMod (both parts). -/
theorem witness_ModRule_zero :
    hi3.pc.toNat ≤ 253 ∧ (3 : Byte).toNat = (3 : RegIdx).val ∧ hi3.regs[(3 : RegIdx)] = 0 ∧ hi3.haltReason = .none ∧
      look (exec (.mod 0 3) hi3) (view 0) = some (255, 253, .divisionByZero 253) := by decide

theorem witness_NotRule :
    hi3.pc.toNat ≤ 253 ∧ (7 : Byte).toNat = (7 : RegIdx).val ∧
      look (exec (.not 7) hi3) (view 7) = some (0x0B, 255, .none) := by decide

theorem witness_CmpRule :
    hi3.pc.toNat ≤ 253 ∧ look (exec (.cmp 0 1) hi3) State.fl = some 0b010 ∧
      look (exec (.cmp 1 1) hi3) State.fl = some 0b001 := by decide

/-- CompareThenJump: the highest address of a CMP whose jump lies in memory. -/
theorem witness_CompareThenJump :
    (start 251 [(0, 9), (1, 9)] []).pc.toNat ≤ 251 ∧
      look (exec (.cmp 0 1) (start 251 [(0, 9), (1, 9)] [])) (fun t => (t.fl, t.pc.toNat)) = some (0b001, 254) := by
  decide

/-- The third clause of HltRule: a state with no recorded halt, in which HLT records it. -/
theorem witness_HltRule :
    State.reset.haltReason ≠ .halted ∧ look (exec .hlt State.reset) State.haltReason = some .halted := by decide

theorem witness_LdiRule :
    hi3.pc.toNat ≤ 253 ∧ (7 : Byte).toNat = (7 : RegIdx).val ∧
      look (exec (.ldi 7 200) hi3) (view 7) = some (200, 256, .none) := by decide

theorem witness_PrnRule :
    hi2.pc.toNat ≤ 254 ∧ look (exec (.prn 0) hi2) (fun t => (t.out, t.pc.toNat)) = some ([255], 256) := by decide

theorem witness_StRule :
    hi3.pc.toNat ≤ 253 ∧ look (exec (.st 0 1) hi3) (fun t => (t.byteAt 255, t.byteAt 254, t.pc.toNat)) =
      some (2, 0, 256) := by decide

/-- The lowest pointer that can push, and the one that cannot. -/
theorem witness_PushRule :
    hi2.pc.toNat ≤ 254 ∧ (start 254 [(7, 1)] []).regs[7] ≠ 0 ∧ (start 254 [(7, 0)] []).regs[7] = 0 ∧
      (7 : Byte).toNat < 8 ∧ look (exec (.push 0) (start 254 [(0, 5), (7, 1)] [])) (fun t => (t.byteAt 0, view 7 t)) =
        some (5, 0, 256, .none) := by decide

/-- The highest pointer that can pop, and the one that cannot. -/
theorem witness_PopRule :
    hi2.pc.toNat ≤ 254 ∧ (6 : Byte).toNat = (6 : RegIdx).val ∧ (6 : RegIdx) ≠ 7 ∧ (6 : Byte).toNat < 7 ∧
      (start 254 [(7, 254)] []).regs[7] ≠ 255 ∧ (start 254 [(7, 255)] []).regs[7] = 255 ∧
      look (exec (.pop 6) (start 254 [(7, 254)] [(254, 9)])) (fun t => (t.reg 6, view 7 t)) =
        some (9, 255, 256, .none) := by decide

/-- POP R7 with a loaded byte of 254 and of 255. -/
theorem witness_PopStackPointerRule :
    (start 254 [] [(0xF4, 254)]).pc.toNat ≤ 254 ∧
      (start 254 [] [(0xF4, 254)]).byteAt (start 254 [] [(0xF4, 254)]).regs[7].toNat ≠ 255 ∧
      (start 254 [] [(0xF4, 255)]).byteAt (start 254 [] [(0xF4, 255)]).regs[7].toNat = 255 := by decide

/-- CALL at the highest address with a return address, at 254, and with a pointer of 0. -/
theorem witness_CallRule :
    hi3.pc.toNat ≤ 253 ∧ hi3.regs[7] ≠ 0 ∧ (start 254 [] []).pc.toNat = 254 ∧ (start 253 [(7, 0)] []).regs[7] = 0 ∧
      (7 : Byte).toNat < 8 ∧
      look (exec (.call 1) hi3) (fun t => (t.byteAt 0xF3, view 7 t)) = some (255, 0xF3, 2, .none) := by decide

/-- RET with the highest pointer that can pop, and with the one that cannot. -/
theorem witness_RetRule :
    (start 0 [(7, 254)] []).regs[7] ≠ 255 ∧ (start 0 [(7, 255)] []).regs[7] = 255 ∧
      look (exec .ret (start 0 [(7, 254)] [(254, 255)])) (view 7) = some (255, 255, .none) := by decide

theorem witness_JmpRule :
    hi2.pc.toNat ≤ 254 ∧ (7 : Byte).toNat = (7 : RegIdx).val ∧
      look (exec (.jmp 7) hi2) (view 7) = some (0xF4, 0xF4, .none) := by decide

/-- E 1 at address 254 and 255: the clauses of JeqRule that jump or fault, and JneRule's other one. -/
theorem witness_JeqRule :
    (hi2.setFlags 1).fl.getLsbD 0 = true ∧ (hi2.setFlags 1).pc.toNat ≤ 254 ∧
      ((start 255 [] []).setFlags 1).fl.getLsbD 0 = true ∧
      look (exec (.jeq 0) (hi2.setFlags 1)) (view 0) = some (255, 255, .none) ∧
      look (exec (.jne 8) (hi2.setFlags 1)) (view 0) = some (255, 256, .none) := by decide

/-- E 0, with G set: the clauses of JneRule that jump, and JeqRule's other one. -/
theorem witness_JneRule :
    (hi2.setFlags 2).fl.getLsbD 0 = false ∧ (hi2.setFlags 2).pc.toNat ≤ 254 ∧
      look (exec (.jne 0) (hi2.setFlags 2)) (view 0) = some (255, 255, .none) ∧
      look (exec (.jeq 8) (hi2.setFlags 2)) (view 0) = some (255, 256, .none) := by decide

/-- PushThenPop: the pair at address 252, R7 pushed. -/
theorem witness_PushThenPop :
    let s := start 252 [] [(252, 0x45), (253, 7), (254, 0x46), (255, 7)]
    s.running = true ∧ s.pc.toNat ≤ 252 ∧ (7 : Byte).toNat < 8 ∧ s.regs[7] ≠ 0 ∧ s.byteAt s.pc.toNat = 0x45 ∧
      s.byteAt (s.pc.toNat + 1) = 7 ∧ s.byteAt (s.pc.toNat + 2) = 0x46 ∧ s.byteAt (s.pc.toNat + 3) = 7 ∧
      (s.regs[7] - 1).toNat ≠ s.pc.toNat + 2 ∧ (s.regs[7] - 1).toNat ≠ s.pc.toNat + 3 := by decide

/-- CallThenRet: the RET finds the stack as the CALL left it. -/
theorem witness_CallThenRet :
    hi3.pc.toNat ≤ 253 ∧ (1 : Byte).toNat < 8 ∧ hi3.regs[7] ≠ 0 ∧
      look (exec (.call 1) hi3) (fun t => look (exec .ret t) (view 7)) = some (some (0xF4, 255, .none)) := by decide

/-- The frames and the rules "only CMP, only PRN, only the stores write": the instruction answers a next state. -/
theorem witness_frames :
    look (exec (.add 0 1) hi3) State.running = some true ∧ look (exec (.cmp 0 1) hi3) State.running = some true ∧
      look (exec (.prn 0) hi3) State.running = some true ∧ look (exec .hlt hi3) State.running = some false ∧
      look (exec (.pop 0) hi3) State.running = some true ∧ look (exec .ret hi3) State.running = some true ∧
      look (exec (.call 0) hi3) State.running = some true := by decide

/-- StoreFrame and MemoryWrittenOnlyByStores: an ST that changes memory, and an address outside the byte stored to. -/
theorem witness_StoreFrame :
    look (exec (.st 0 1) hi3) (fun t => decide (t.mem ≠ hi3.mem)) = some true ∧
      regIndex 0 = .ok (0 : RegIdx) ∧ 254 ≠ (hi3.reg 0).toNat ∧ spDown hi3.sp = .ok 0xF3 ∧ 254 ≠ (0xF3 : Byte).toNat := by
  decide

/-- Both clauses of MemWriteRule at the ends of the range. -/
theorem witness_MemWriteRule :
    ((-1 : Int) < 0 ∨ (255 : Int) < -1) ∧ ((256 : Int) < 0 ∨ (255 : Int) < 256) ∧ ((0 : Int) ≤ 255 ∧ (255 : Int) ≤ 255) ∧
      Memory.wf [(0, 1), (255, 2)] := by decide

/-- CanonicalMemoryIsUnique: two canonical memories written in different orders read alike. -/
theorem witness_CanonicalMemoryIsUnique :
    let m := Memory.write (Memory.write [] 3 1) 200 2
    let m' := Memory.write (Memory.write (Memory.write [] 200 2) 5 9) 3 1
    Memory.wf m ∧ Memory.wf m' ∧ m = Memory.write m' 5 0 := by decide

/-- StoreSeenByNextFetch: an ST at 252 of 0x01 to 255, the next instruction's address. -/
theorem witness_StoreSeenByNextFetch :
    let s := start 252 [(0, 255), (1, 1)] []
    s.running = true ∧ s.pc.toNat ≤ 252 ∧ s.regs[(0 : RegIdx)].toNat = s.pc.toNat + 3 ∧ s.regs[(1 : RegIdx)] = 0x01 ∧
      look (exec (.st 0 1) s) (fun t => look (step t) (view 0)) = some (some (255, 256, .halted)) := by decide

/-- OpcodeCensus: 0x00 is no instruction's opcode. -/
theorem witness_OpcodeCensus : ∀ m ∈ Mnemonic.all, opcodeOf m ≠ 0x00 := by decide

/-- EncodeOfDecode: bytes that decode and are not cut short. -/
theorem witness_EncodeOfDecode :
    decodeBytes [0x45, 3, 9] = .ok (.push 3) ∧ (encode (.push 3)).length ≤ [0x45, 3, (9 : Byte)].length := by
  refine ⟨rfl, by decide⟩

/-- StepRunsDecodedInstruction and StepRunsEncodedInstruction: the last instruction that fits, HLT at 255. -/
theorem witness_StepRuns :
    let s := start 255 [] [(255, 0x01)]
    s.running = true ∧ s.pc.toNat ≤ 255 ∧ decodeBytes s.window = .ok .hlt ∧ s.pc.toNat + (encode .hlt).length ≤ 256 ∧
      ∀ k (h : k < (encode .hlt).length), s.byteAt (s.pc.toNat + k) = (encode .hlt)[k] := by
  refine ⟨rfl, by decide, rfl, by decide, fun k h => ?_⟩
  have : k = 0 := by simpa [encode, Instr.operands] using h
  subst this; rfl

/-- OperandBeyondMemoryNeverMatters: a JMP at 255 with two fillers, an ADD at 254 with two. -/
theorem witness_OperandBeyondMemory :
    (start 255 [] []).pc.toNat = 255 ∧ decode 0x54 0 0 = .ok (.jmp 0) ∧ decode 0x54 9 0 = .ok (.jmp 9) ∧
      (start 254 [] []).pc.toNat = 254 ∧ decode 0xA0 1 0 = .ok (.add 1 0) ∧ decode 0xA0 1 9 = .ok (.add 1 9) := by
  refine ⟨rfl, rfl, rfl, rfl, rfl, rfl⟩

/-- FetchRule: an instruction at 253, and both values of `pc` beyond memory that a run can reach. -/
theorem witness_FetchRule :
    decode ((start 253 [] [(253, 0x45), (254, 3)]).byteAt 253) ((start 253 [] [(253, 0x45), (254, 3)]).byteAt 254)
      ((start 253 [] [(253, 0x45), (254, 3)]).byteAt 255) = .ok (.push 3) ∧
    (start 256 [] []).running = true ∧ 255 < (start 256 [] []).pc.toNat ∧ 255 < (start 257 [] []).pc.toNat :=
  ⟨rfl, by decide⟩

/-- UnknownOpcodeFaults at address 255, with a byte of count 3. -/
theorem witness_UnknownOpcodeFaults :
    let s := start 255 [] [(255, 0xC0)]
    s.running = true ∧ s.pc.toNat ≤ 255 ∧ s.byteAt s.pc.toNat = 0xC0 ∧ (0xC0 : Byte).getLsbD 5 = false ∧
      ∀ m ∈ Mnemonic.all, opcodeOf m ≠ 0xC0 := by decide

/-- UnsupportedOperationFaults: at 253 and at 254. -/
theorem witness_UnsupportedOperationFaults :
    let s := start 253 [] [(253, 0xA1)]
    let u := start 254 [] [(254, 0xA1)]
    s.running = true ∧ s.byteAt s.pc.toNat = 0xA1 ∧ s.pc.toNat ≤ 253 ∧ u.byteAt u.pc.toNat = 0xA1 ∧ 254 ≤ u.pc.toNat ∧
      u.pc.toNat ≤ 255 ∧ (0xA1 : Byte).getLsbD 5 = true ∧ ∀ m ∈ Mnemonic.all, opcodeOf m ≠ 0xA1 := by decide

/-- StepExactlyWhileRunning: a RUNNING and a HALTED state. -/
theorem witness_StepExactlyWhileRunning :
    State.reset.running = true ∧ (State.reset.stop .halted).running = false := by decide

/-- RegisterIndexCheck: a byte of 8 used as an index, in a JNE at 254 and in an ADD at 253; and a not-taken JEQ whose
byte 200 is not used. -/
theorem witness_RegisterIndexCheck :
    hi2.pc.toNat + 2 ≤ 256 ∧ (opcodeOf .jne).getLsbD 5 = false ∧ (encode (.jne 8)).length = 2 ∧
      (∃ b ∈ usedIndexBytes (.jne 8) hi2, 8 ≤ b.toNat) ∧
      hi3.pc.toNat + 3 ≤ 256 ∧ (opcodeOf .add).getLsbD 5 = true ∧ (∃ b ∈ usedIndexBytes (.add 0 8) hi3, 8 ≤ b.toNat) ∧
      hi3.haltReason = .none ∧
      (∀ b ∈ usedIndexBytes (.jeq 200) hi3, b.toNat < 8) ∧
      look (exec (.jeq 200) hi3) State.haltReason = some .none := by decide

/-- StopsArePrecise: a step that stops by HLT, and one that stops by a fault. -/
theorem witness_StopsArePrecise :
    look (step (at0 [0x01] [])) State.running = some false ∧ look (step (at0 [0x00] [])) State.running = some false := by
  decide

/-- DefaultAdvance and FlagsWrittenOnlyByCmp: LDI has no sets-PC bit, is not CMP, and answers a next state. -/
theorem witness_DefaultAdvance :
    (opcodeOf (Instr.ldi 0 1).mnemonic).getLsbD 4 = false ∧ (Instr.ldi 0 1).mnemonic ≠ .cmp ∧
      look (exec (.ldi 0 1) hi3) (view 0) = some (1, 256, .none) := by decide

/-- GreaterAndLessNeverRead and OutputNeverRead: two states that differ only in G and L, of which the first steps. -/
theorem witness_GreaterAndLessNeverRead :
    AgreeButGL ((at0 [0x55, 0] []).setFlags 2) ((at0 [0x55, 0] []).setFlags 4) ∧
      look (step ((at0 [0x55, 0] []).setFlags 2)) (view 0) = some (0, 2, .none) := by
  exact ⟨⟨rfl, rfl⟩, by decide⟩

/-- LoadRule and InvariantAfterLoad: the longest program that is accepted, and one byte more. -/
theorem witness_LoadRule :
    (List.replicate 256 (1 : Byte)).length ≤ 256 ∧ 256 < (List.replicate 257 (1 : Byte)).length ∧
      look (load [0x01]) (fun s => s.byteAt 0) = some 0x01 := by
  rw [List.length_replicate, List.length_replicate]; decide

/-- InvariantKept: the reset state meets the invariant, and steps (V-ENG-1). -/
theorem witness_InvariantKept : State.reset.Inv ∧ look (step State.reset) State.running = some false :=
  ⟨⟨by decide, .inl rfl, by decide, by decide⟩, by decide⟩

end Sys2Proof.Tests
end

section
/-! The register-index check (`10_state.md` R12): which bytes an instruction checks, that it rejects each of them above
7, and that it makes no other register-index check. One rule per operation that a handler is made of; the 21 handlers are
then composed from the rules. -/

namespace Sys2Proof.Machine

open Sys2Proof.Claims

/-! ### Pieces of a cycle that raise no register-index fault -/

/-- `c` does not raise OutOfBoundsAccess(RegisterIndex). -/
def NoIndexFault {α : Type} (c : Check α) : Prop := ∀ v, c ≠ .error (.outOfBoundsAccess .registerIndex v)

theorem noIndexFault_ok {α : Type} (a : α) : NoIndexFault (.ok a : Check α) := nofun

theorem NoIndexFault.bind {α β : Type} {c : Check α} {k : α → Check β} (hc : NoIndexFault c)
    (hk : ∀ a, NoIndexFault (k a)) : NoIndexFault (c >>= k) := by
  cases c with
  | ok a => exact hk a
  | error f => exact fun v h => hc v (by simpa using h)

theorem State.memRead_noIndexFault (s : State) (addr : Nat) : NoIndexFault (s.memRead addr) := by
  intro v; unfold State.memRead; split <;> simp

theorem State.operandRead_noIndexFault (s : State) (k : Nat) : NoIndexFault (s.operandRead k) := by
  intro v
  by_cases h : s.pc.toNat + k < 256
  · simp [State.operandRead_in h]
  · simp [State.operandRead_out (Nat.not_lt.1 h)]

theorem State.handlerReads_noIndexFault (s : State) (n : Nat) : NoIndexFault (s.handlerReads n) := by
  induction n with
  | zero => exact noIndexFault_ok ()
  | succ n ih => exact ih.bind fun _ => s.operandRead_noIndexFault (n + 1)

theorem State.engineReads_noIndexFault (s : State) (ir : Byte) : NoIndexFault (s.engineReads ir) := by
  unfold State.engineReads
  split
  · exact (s.operandRead_noIndexFault 1).bind fun _ => s.operandRead_noIndexFault 2
  · exact noIndexFault_ok ()

theorem spDown_noIndexFault (sp : Byte) : NoIndexFault (spDown sp) := by
  intro v; unfold spDown; split <;> simp

theorem spUp_noIndexFault (v : Byte) : NoIndexFault (spUp v) := by
  intro w; unfold spUp; split <;> simp

theorem returnAddress_noIndexFault (ia : PcWord) : NoIndexFault (returnAddress ia) := by
  intro v; unfold returnAddress; split <;> simp

/-! ### Handlers that record no register-index fault -/

/-- A handler started in `s` that raises no register-index fault and, where it completes, records nothing but Halted. -/
def IndexSafe (s : State) : Check State → Prop
  | .ok u => u.haltReason = s.haltReason ∨ u.haltReason = .halted
  | .error f => ∀ v, f ≠ .outOfBoundsAccess .registerIndex v

theorem IndexSafe.keeps {s u : State} (h : u.haltReason = s.haltReason) : IndexSafe s (.ok u) := .inl h

theorem IndexSafe.bind {α : Type} {s : State} {c : Check α} {k : α → Check State} (hc : NoIndexFault c)
    (hk : ∀ a, IndexSafe s (k a)) : IndexSafe s (c >>= k) := by
  cases c with
  | ok a => exact hk a
  | error f => exact fun v h => hc v (congrArg _ h)

/-- Recording a raised OutOfBoundsAccess keeps its kind and its value (R19). -/
theorem Raise.at_eq_outOfBoundsAccess {f : Raise} {ia ia' : PcWord} {k : BoundKind} {v : Int}
    (h : f.at ia = .outOfBoundsAccess k v ia') : f = .outOfBoundsAccess k v := by
  cases f <;> simp_all [Raise.at]

/-- A cycle around an index-safe handler, in a state that has recorded nothing, records no register-index fault. -/
theorem State.cycle_records_no_indexFault {s t : State} {m : Mnemonic} {h : Check State} (hs : s.haltReason = .none)
    (hh : IndexSafe s h) (hc : s.cycle m h = .next t) (v : Int) (ia : PcWord) :
    t.haltReason ≠ .outOfBoundsAccess .registerIndex v ia := by
  intro ht
  cases hr : s.engineReads (opcodeOf m) with
  | error f =>
    rw [State.cycle_reads_error hr] at hc
    cases hc
    exact s.engineReads_noIndexFault _ v (hr.trans (congrArg _ (Raise.at_eq_outOfBoundsAccess ht)))
  | ok _ =>
    cases h with
    | error f =>
      rw [State.cycle_error hr rfl] at hc
      cases hc
      exact hh v (Raise.at_eq_outOfBoundsAccess ht)
    | ok u =>
      rw [State.cycle_ok hr rfl] at hc
      cases hc
      rw [State.engineAdvance_haltReason] at ht
      obtain hu | hu := hh <;> simp [hu, hs] at ht

/-! ### Handlers that check given bytes as register indices -/

/-- The handler `h`, started in `s`, checks exactly the bytes `bs` as register indices: with the `n` operand bytes in
memory it rejects a byte above 7, and with all of `bs` in range it raises no register-index fault. -/
structure ChecksIndices (s : State) (n : Nat) (bs : List Byte) (h : Check State) : Prop where
  rejects : s.pc.toNat + n < 256 → (∃ b ∈ bs, 8 ≤ b.toNat) →
    ∃ b ∈ bs, 8 ≤ b.toNat ∧ h = .error (.outOfBoundsAccess .registerIndex b.toNat)
  accepts : (∀ b ∈ bs, b.toNat < 8) → IndexSafe s h

theorem ChecksIndices.nil {s : State} {n : Nat} {h : Check State} (hh : IndexSafe s h) : ChecksIndices s n [] h where
  rejects _ hb := by simp at hb
  accepts _ := hh

/-- One index check, before a continuation that checks `bs`. -/
theorem ChecksIndices.cons {s : State} {n : Nat} {b : Byte} {bs : List Byte} {k : RegIdx → Check State}
    (hk : ∀ r, ChecksIndices s n bs (k r)) : ChecksIndices s n (b :: bs) (regIndex b >>= k) where
  rejects hn hbad := by
    by_cases hb : b.toNat < 8
    · have hbs : ∃ c ∈ bs, 8 ≤ c.toNat := by simpa [Nat.not_le.2 hb] using hbad
      obtain ⟨c, hc, hc8, herr⟩ := (hk ⟨b.toNat, hb⟩).rejects hn hbs
      exact ⟨c, .tail _ hc, hc8, by rw [regIndex_in hb, Check.ok_bind, herr]⟩
    · exact ⟨b, .head _, Nat.not_lt.1 hb, by rw [regIndex_out (Nat.not_lt.1 hb), Check.error_bind]⟩
  accepts hok := by
    obtain ⟨hb, hbs⟩ := List.forall_mem_cons.1 hok
    rw [regIndex_in hb, Check.ok_bind]
    exact (hk _).accepts hbs

/-- The handler's own operand reads come before its index checks. -/
theorem ChecksIndices.reads {s : State} {n m : Nat} {bs : List Byte} {h : Check State} (hm : m ≤ n)
    (hh : ChecksIndices s n bs h) : ChecksIndices s n bs (do s.handlerReads m; h) where
  rejects hn := by
    rw [State.handlerReads_in (by omega), Check.ok_bind]
    exact hh.rejects hn
  accepts hok := .bind (s.handlerReads_noIndexFault m) fun _ => hh.accepts hok

theorem ChecksIndices.ite {s : State} {n : Nat} {c : Bool} {bs bs' : List Byte} {h h' : Check State}
    (ht : ChecksIndices s n bs h) (hf : ChecksIndices s n bs' h') :
    ChecksIndices s n (if c then bs else bs') (if c then h else h') := by
  cases c <;> assumption

theorem State.jumpTo_checksIndices (s : State) (r : Byte) : ChecksIndices s 1 [r] (s.jumpTo r) :=
  .reads le_rfl <| .cons fun _ => .nil <| .keeps rfl

theorem State.skipJump_checksIndices (s : State) : ChecksIndices s 1 [] s.skipJump := .nil <| .keeps rfl

/-- Every instruction's handler checks exactly the bytes that the instruction uses as register indices (R12). -/
theorem exec_checksIndices (i : Instr) (s : State) :
    ∃ h, exec i s = s.cycle i.mnemonic h ∧ ChecksIndices s i.operands.length (usedIndexBytes i s) h := by
  cases i <;>
    simp only [exec, execAdd, execMul, execMod, execCmp, execAnd, execNot, execOr, execXor, execShl, execShr, execHlt,
      execLdi, execSt, execPush, execPop, execPrn, execCall, execRet, execJmp, execJeq, execJne, State.aluBinary,
      Instr.mnemonic] <;>
    refine ⟨_, rfl, ?_⟩
  case add | mul | and | or | xor | shl | shr =>
    exact .cons fun _ => .cons fun _ => .nil <| .bind (noIndexFault_ok _) fun _ => .keeps rfl
  case mod a b =>
    refine .cons fun _ => .cons fun _ => .nil <| .bind (fun v => ?_) fun _ => .keeps rfl
    split <;> simp
  case cmp => exact .cons fun _ => .cons fun _ => .nil <| .keeps rfl
  case not => exact .cons fun _ => .nil <| .keeps rfl
  case hlt => exact .nil <| Or.inr rfl
  case ldi | prn => exact .reads le_rfl <| .cons fun _ => .nil <| .keeps rfl
  case st =>
    refine .reads le_rfl <| .cons fun _ => .cons fun _ => .nil ?_
    rw [State.memWrite_byte]
    exact .keeps rfl
  case push =>
    refine .reads le_rfl <| .cons fun _ => .nil <| .bind (spDown_noIndexFault _) fun _ => ?_
    rw [State.pushByte_eq]
    exact .keeps rfl
  case pop =>
    refine .reads le_rfl <| .cons fun _ => .nil <| .bind (s.memRead_noIndexFault _) fun _ =>
      .bind (spUp_noIndexFault _) fun _ => .keeps ?_
    split <;> rfl
  case call =>
    refine .reads le_rfl <| .cons fun _ => .nil <| .bind (returnAddress_noIndexFault _) fun _ =>
      .bind (spDown_noIndexFault _) fun _ => ?_
    rw [State.pushByte_eq]
    exact .keeps rfl
  case ret => exact .nil <| .bind (s.memRead_noIndexFault _) fun _ => .bind (spUp_noIndexFault _) fun _ => .keeps rfl
  case jmp r => exact s.jumpTo_checksIndices r
  case jeq r => exact .ite (c := s.equalFlag) (s.jumpTo_checksIndices r) s.skipJump_checksIndices
  case jne r => exact .ite (c := s.equalFlag) s.skipJump_checksIndices (s.jumpTo_checksIndices r)

/-- With its operands in memory, an instruction passes the engine's reads, and its own bytes are addresses. -/
theorem reads_of_operandsInMemory {i : Instr} {s : State} (h : operandsInMemory i s) :
    s.engineReads (opcodeOf i.mnemonic) = .ok () ∧ s.pc.toNat + i.operands.length < 256 := by
  have hlen : i.operands.length ≤ 2 := i.operands_length ▸ i.mnemonic.format.operandBytes_le
  unfold operandsInMemory at h
  split at h
  · exact ⟨State.engineReads_in _ (by omega), by omega⟩
  · next halu =>
    have hbytes : (encode i).length = i.operands.length + 1 := rfl
    exact ⟨State.engineReads_nonAlu (Bool.eq_false_of_not_eq_true halu), by omega⟩

/-- Settles O47: every handler checks exactly the bytes `usedIndexBytes` names (`exec_checksIndices`). -/
theorem registerIndexCheck : Obligations.RegisterIndexCheck := by
  constructor
  · intro i s hmem hbad
    obtain ⟨h, he, hc⟩ := exec_checksIndices i s
    obtain ⟨hreads, hn⟩ := reads_of_operandsInMemory hmem
    obtain ⟨b, hb, hb8, herr⟩ := hc.rejects hn hbad
    exact ⟨b, hb, hb8, he.trans (State.cycle_error hreads herr)⟩
  · intro i s t v ia hs hok ht
    obtain ⟨h, he, hc⟩ := exec_checksIndices i s
    exact State.cycle_records_no_indexFault hs (hc.accepts hok) (he ▸ ht) v ia

end Sys2Proof.Machine
end

section
/-! The bounds-checked accesses to memory (`spec/20_memory.md`). -/

namespace Sys2Proof.Machine

/-- Settles O31, by R31's own case split on the address; each case is the law of `memRead` for its range. -/
theorem memReadRule : Obligations.MemReadRule := by
  intro s addr
  by_cases h : addr > 255
  · rw [if_pos h, State.memRead_out h]
  · rw [if_neg h, State.memRead_in (by omega)]

end Sys2Proof.Machine
end

section
/-! The front of a cycle (`spec/40_engine.md` R71): what `step` does once the opcode fetch has succeeded or raised. -/

namespace Sys2Proof.Machine

open Sys2Proof.Claims

/-- With `pc` an address, a RUNNING machine runs the instruction that the bytes at `pc` decode to. -/
theorem step_of_decodeBytes {s : State} {i : Instr} (hr : s.running = true) (hp : s.pc.toNat < 256)
    (hd : decodeBytes s.window = .ok i) : step s = exec i s := by
  have hf : s.fetch = .instruction i := by simp [State.fetch, hr, State.memRead_in hp, hd]
  simp only [step, hf]

/-- With `pc` beyond memory, a RUNNING machine takes the fault that the opcode fetch raises. -/
theorem step_of_pc_out {s : State} (hr : s.running = true) (hp : 256 ≤ s.pc.toNat) :
    step s = .next (s.raise (.outOfBoundsAccess .memoryAddress s.pc.toNat)) := by
  have hf : s.fetch = .stopped (s.raise (.outOfBoundsAccess .memoryAddress s.pc.toNat)) := by
    simp [State.fetch, hr, State.memRead_out hp]
  simp only [step, hf]

/-- Where both operand bytes are in memory, none of the fetched bytes is a filler. -/
theorem State.window_in {s : State} (h : s.pc.toNat + 2 < 256) :
    s.window = [s.byteAt s.pc.toNat, s.byteAt (s.pc.toNat + 1), s.byteAt (s.pc.toNat + 2)] := by
  rw [State.window, Config.memSize, if_pos (by omega), if_pos h]

/-- Settles O43, by whether the opcode fetch is in memory: then the cycle is the decoded instruction's, else the fault. -/
theorem fetchRule : Obligations.FetchRule := by
  constructor
  · intro s i hr hp hd
    refine step_of_decodeBytes hr (by omega) ?_
    rw [State.window_in (by omega)]
    exact hd
  · intro s hr hp
    exact step_of_pc_out hr hp

end Sys2Proof.Machine
end

section
/-! A fetched byte that is no instruction (`spec/60_exceptions.md` R151, R152): the decoder rejects it by its bit 5, and
only the ALU side has operand reads that can raise first. -/

namespace Sys2Proof

theorem lookupOpcode_eq_none {ir : Byte} (h : ∀ m, opcodeOf m ≠ ir) : lookupOpcode ir = none :=
  Option.eq_none_iff_forall_ne_some.2 fun m hm => h m (lookupOpcode_eq_some.1 hm).symm

theorem decode_unknownOpcode {ir : Byte} (b1 b2 : Byte) (h : ∀ m, opcodeOf m ≠ ir) (halu : opIsAlu ir = false) :
    decode ir b1 b2 = .error (.unknownOpcode ir) := by
  simp [decode, lookupOpcode_eq_none h, halu]

theorem decode_unsupportedALUOperation {ir : Byte} (b1 b2 : Byte) (h : ∀ m, opcodeOf m ≠ ir)
    (halu : opIsAlu ir = true) : decode ir b1 b2 = .error (.unsupportedALUOperation ir) := by
  simp [decode, lookupOpcode_eq_none h, halu]

end Sys2Proof

namespace Sys2Proof.Machine

/-- With `pc` an address, a RUNNING machine ends the cycle of bytes that do not decode by rejecting the opcode. -/
theorem step_of_decodeBytes_error {s : State} {e : DecodeError} (hr : s.running = true) (hp : s.pc.toNat < 256)
    (hd : decodeBytes s.window = .error e) : step s = .next (s.rejectOpcode e) := by
  have hf : s.fetch = .stopped (s.rejectOpcode e) := by simp [State.fetch, hr, State.memRead_in hp, hd]
  simp only [step, hf]

/-- From address 254 on one of the ALU path's operand reads is beyond memory; the first such address is always 256. -/
theorem State.engineReads_out {s : State} {ir : Byte} (halu : opIsAlu ir = true) (h1 : 254 ≤ s.pc.toNat)
    (h2 : s.pc.toNat ≤ 255) : s.engineReads ir = .error (.outOfBoundsAccess .memoryAddress 256) := by
  rw [State.engineReads_alu halu]
  obtain hp | hp : s.pc.toNat = 254 ∨ s.pc.toNat = 255 := by omega
  · rw [State.operandRead_in (by omega), Check.ok_bind, State.operandRead_out (by omega), hp]
    rfl
  · rw [State.operandRead_out (by omega), Check.error_bind, hp]
    rfl

theorem State.rejectOpcode_unsupported {s : State} {ir : Byte} (h : s.engineReads ir = .ok ()) :
    s.rejectOpcode (.unsupportedALUOperation ir) = s.raise (.unsupportedALUOperation ir) := by
  simp [State.rejectOpcode, h]

theorem State.rejectOpcode_reads_error {s : State} {ir : Byte} {f : Raise} (h : s.engineReads ir = .error f) :
    s.rejectOpcode (.unsupportedALUOperation ir) = s.raise f := by
  simp [State.rejectOpcode, h]

/-- Settles O44: the decoder rejects the byte as UnknownOpcode, and that rejection makes no operand read. -/
theorem unknownOpcodeFaults : Obligations.UnknownOpcodeFaults := by
  rintro s ir hr hp rfl halu hno
  exact step_of_decodeBytes_error hr (by omega) (decode_unknownOpcode _ _ hno halu)

/-- Settles O45: the decoder rejects the byte as UnsupportedALUOperation, and the address decides whether the ALU path's
operand reads raise first. -/
theorem unsupportedOperationFaults : Obligations.UnsupportedOperationFaults := by
  rintro s ir hr rfl halu hno
  have hstep (hp : s.pc.toNat < 256) :
      step s = .next (s.rejectOpcode (.unsupportedALUOperation (s.byteAt s.pc.toNat))) :=
    step_of_decodeBytes_error hr hp (decode_unsupportedALUOperation _ _ hno halu)
  constructor
  · intro hp
    rw [hstep (by omega), State.rejectOpcode_unsupported (State.engineReads_in _ (by omega))]
    rfl
  · intro hp1 hp2
    rw [hstep (by omega), State.rejectOpcode_reads_error (State.engineReads_out halu hp1 hp2)]
    rfl

end Sys2Proof.Machine
end

section
/-! DivisionByZero (`spec/60_exceptions.md` R153): every piece of a cycle raises nothing but OutOfBoundsAccess, except
MOD's own operation on a zero divisor. One rule per operation that a handler is made of; the 21 handlers are then
composed from the rules. -/

namespace Sys2Proof.Machine

/-- `c` completes with a value of `Q`, or raises an OutOfBoundsAccess. -/
def BoundsFaultsOnly {α : Type} (Q : α → Prop) : Check α → Prop
  | .ok a => Q a
  | .error f => ∃ k v, f = .outOfBoundsAccess k v

/-- `c` raises, if anything, an OutOfBoundsAccess. -/
abbrev RaisesBoundsOnly {α : Type} (c : Check α) : Prop := BoundsFaultsOnly (fun _ => True) c

theorem BoundsFaultsOnly.bind {α β : Type} {Q : β → Prop} {c : Check α} {k : α → Check β}
    (hc : RaisesBoundsOnly c) (hk : ∀ a, BoundsFaultsOnly Q (k a)) : BoundsFaultsOnly Q (c >>= k) := by
  cases c with
  | ok a => exact hk a
  | error f => exact hc

theorem State.memRead_raisesBoundsOnly (s : State) (addr : Nat) : RaisesBoundsOnly (s.memRead addr) := by
  unfold State.memRead
  split
  · trivial
  · exact ⟨_, _, rfl⟩

theorem State.operandRead_raisesBoundsOnly (s : State) (k : Nat) : RaisesBoundsOnly (s.operandRead k) := by
  by_cases h : s.pc.toNat + k < 256
  · rw [State.operandRead_in h]; trivial
  · rw [State.operandRead_out (Nat.not_lt.1 h)]; exact ⟨_, _, rfl⟩

theorem State.handlerReads_raisesBoundsOnly (s : State) (n : Nat) : RaisesBoundsOnly (s.handlerReads n) := by
  induction n with
  | zero => trivial
  | succ n ih => exact ih.bind fun _ => s.operandRead_raisesBoundsOnly (n + 1)

theorem State.engineReads_raisesBoundsOnly (s : State) (ir : Byte) : RaisesBoundsOnly (s.engineReads ir) := by
  unfold State.engineReads
  split
  · exact (s.operandRead_raisesBoundsOnly 1).bind fun _ => s.operandRead_raisesBoundsOnly 2
  · trivial

theorem regIndex_raisesBoundsOnly (b : Byte) : RaisesBoundsOnly (regIndex b) := by
  unfold regIndex
  split
  · trivial
  · exact ⟨_, _, rfl⟩

theorem spDown_raisesBoundsOnly (sp : Byte) : RaisesBoundsOnly (spDown sp) := by
  unfold spDown
  split
  · exact ⟨_, _, rfl⟩
  · trivial

theorem spUp_raisesBoundsOnly (v : Byte) : RaisesBoundsOnly (spUp v) := by
  unfold spUp
  split
  · exact ⟨_, _, rfl⟩
  · trivial

theorem returnAddress_raisesBoundsOnly (ia : PcWord) : RaisesBoundsOnly (returnAddress ia) := by
  unfold returnAddress
  split
  · trivial
  · exact ⟨_, _, rfl⟩

/-! ### Handlers -/

/-- A handler started in `s` that raises nothing but OutOfBoundsAccess and, where it completes, records nothing but
Halted. -/
def PlainHandler (s : State) (h : Check State) : Prop :=
  BoundsFaultsOnly (fun u => u.haltReason = s.haltReason ∨ u.haltReason = .halted) h

theorem PlainHandler.keeps {s u : State} (h : u.haltReason = s.haltReason) : PlainHandler s (.ok u) := Or.inl h

theorem PlainHandler.bind {α : Type} {s : State} {c : Check α} {k : α → Check State} (hc : RaisesBoundsOnly c)
    (hk : ∀ a, PlainHandler s (k a)) : PlainHandler s (c >>= k) :=
  BoundsFaultsOnly.bind hc hk

/-- An index check before a handler that is plain whatever the index. -/
theorem PlainHandler.index {s : State} {b : Byte} {k : RegIdx → Check State} (hk : ∀ r, PlainHandler s (k r)) :
    PlainHandler s (regIndex b >>= k) :=
  .bind (regIndex_raisesBoundsOnly b) hk

/-- A non-ALU handler's operand reads before the rest of it. -/
theorem PlainHandler.reads {s : State} {n : Nat} {h : Check State} (hh : PlainHandler s h) :
    PlainHandler s (do s.handlerReads n; h) :=
  .bind (s.handlerReads_raisesBoundsOnly n) fun _ => hh

theorem State.jumpTo_plain (s : State) (r : Byte) : PlainHandler s (s.jumpTo r) :=
  .reads <| .index fun _ => .keeps rfl

theorem State.skipJump_plain (s : State) : PlainHandler s s.skipJump := .keeps rfl

theorem PlainHandler.ite {s : State} {c : Bool} {h h' : Check State} (ht : PlainHandler s h)
    (hf : PlainHandler s h') : PlainHandler s (if c then h else h') := by
  cases c <;> assumption

/-- `i` is a MOD with two valid index bytes and a divisor register that holds 0. -/
def DividesByZero (i : Instr) (s : State) : Prop :=
  ∃ (a b : Byte) (rb : RegIdx), i = .mod a b ∧ a.toNat < 8 ∧ b.toNat = rb.val ∧ s.regs[rb] = 0

/-- MOD on a zero divisor: once the engine's reads succeed it raises DivisionByZero (R93). -/
theorem exec_mod_zero {s : State} {a b : Byte} {ra rb : RegIdx} (hreads : s.engineReads (opcodeOf .mod) = .ok ())
    (ha : a.toNat = ra.val) (hb : b.toNat = rb.val) (h0 : s.regs[rb] = 0) :
    exec (.mod a b) s = .next (s.raise .divisionByZero) := by
  have hv : (s.reg rb).toNat = 0 := congrArg BitVec.toNat h0
  refine State.cycle_error hreads ?_
  simp only [regIndex_eq_ok.2 ha, regIndex_eq_ok.2 hb, Check.ok_bind, if_pos hv, Check.error_bind]

/-- MOD's handler raises DivisionByZero only on a zero divisor, after both index checks. -/
theorem exec_mod_plain {a b : Byte} {s : State} (hz : ¬ DividesByZero (.mod a b) s) :
    ∃ h, exec (.mod a b) s = s.cycle .mod h ∧ PlainHandler s h := by
  refine ⟨_, rfl, ?_⟩
  by_cases ha : a.toNat < 8
  · rw [regIndex_in ha, Check.ok_bind]
    by_cases hb : b.toNat < 8
    · have hv : (s.reg ⟨b.toNat, hb⟩).toNat ≠ 0 := fun h0 =>
        hz ⟨a, b, ⟨b.toNat, hb⟩, rfl, ha, rfl, BitVec.eq_of_toNat_eq h0⟩
      simp only [regIndex_in hb, Check.ok_bind, if_neg hv]
      exact .keeps rfl
    · rw [regIndex_out (Nat.not_lt.1 hb)]
      exact ⟨_, _, rfl⟩
  · rw [regIndex_out (Nat.not_lt.1 ha)]
    exact ⟨_, _, rfl⟩

/-- Every instruction but a MOD that divides by zero has a plain handler. -/
theorem exec_plain {i : Instr} {s : State} (hz : ¬ DividesByZero i s) :
    ∃ h, exec i s = s.cycle i.mnemonic h ∧ PlainHandler s h := by
  cases i
  case mod a b => exact exec_mod_plain hz
  all_goals
    simp only [exec, execAdd, execMul, execCmp, execAnd, execNot, execOr, execXor, execShl, execShr, execHlt, execLdi,
      execSt, execPush, execPop, execPrn, execCall, execRet, execJmp, execJeq, execJne, State.aluBinary, Instr.mnemonic]
    refine ⟨_, rfl, ?_⟩
  case add | mul | and | or | xor | shl | shr | cmp => exact .index fun _ => .index fun _ => .keeps rfl
  case not => exact .index fun _ => .keeps rfl
  case hlt => exact Or.inr rfl
  case ldi | prn => exact .reads <| .index fun _ => .keeps rfl
  case st =>
    refine .reads <| .index fun _ => .index fun _ => ?_
    rw [State.memWrite_byte]
    exact .keeps rfl
  case push =>
    refine .reads <| .index fun _ => .bind (spDown_raisesBoundsOnly _) fun _ => ?_
    rw [State.pushByte_eq]
    exact .keeps rfl
  case pop =>
    refine .reads <| .index fun _ => .bind (s.memRead_raisesBoundsOnly _) fun _ =>
      .bind (spUp_raisesBoundsOnly _) fun _ => .keeps ?_
    split <;> rfl
  case call =>
    refine .reads <| .index fun _ => .bind (returnAddress_raisesBoundsOnly _) fun _ =>
      .bind (spDown_raisesBoundsOnly _) fun _ => ?_
    rw [State.pushByte_eq]
    exact .keeps rfl
  case ret => exact .bind (s.memRead_raisesBoundsOnly _) fun _ => .bind (spUp_raisesBoundsOnly _) fun _ => .keeps rfl
  case jmp r => exact s.jumpTo_plain r
  case jeq r => exact .ite (c := s.equalFlag) (s.jumpTo_plain r) s.skipJump_plain
  case jne r => exact .ite (c := s.equalFlag) s.skipJump_plain (s.jumpTo_plain r)

/-! ### What a cycle records -/

/-- Taking a fault of a piece that raises bounds faults only does not record DivisionByZero. -/
theorem State.raise_records_no_division {α : Type} {Q : α → Prop} {s : State} {f : Raise}
    (hf : BoundsFaultsOnly Q (.error f)) (ia : PcWord) : (s.raise f).haltReason ≠ .divisionByZero ia := by
  obtain ⟨k, v, rfl⟩ := hf
  simp [Raise.at]

/-- A cycle around a plain handler, in a state that has recorded nothing, does not record DivisionByZero. -/
theorem State.cycle_records_no_division {s t : State} {m : Mnemonic} {h : Check State} (hs : s.haltReason = .none)
    (hh : PlainHandler s h) (hc : s.cycle m h = .next t) (ia : PcWord) : t.haltReason ≠ .divisionByZero ia := by
  cases hr : s.engineReads (opcodeOf m) with
  | error f =>
    rw [State.cycle_reads_error hr] at hc
    cases hc
    exact State.raise_records_no_division (hr ▸ s.engineReads_raisesBoundsOnly _) ia
  | ok _ =>
    cases h with
    | error f =>
      rw [State.cycle_error hr rfl] at hc
      cases hc
      exact State.raise_records_no_division hh ia
    | ok u =>
      rw [State.cycle_ok hr rfl] at hc
      cases hc
      rw [State.engineAdvance_haltReason]
      obtain hu | hu := hh <;> simp [hu, hs]

/-- Settles O48: a MOD that divides by zero raises DivisionByZero once its operand reads succeed, and every other
instruction's handler is plain (`exec_plain`). -/
theorem divisionByZeroOnlyByMod : Obligations.DivisionByZeroOnlyByMod := by
  constructor
  · intro s a b ra rb hp ha hb h0
    exact exec_mod_zero (State.engineReads_in _ (by omega)) ha hb h0
  · intro i s t ia hs ht hdiv
    by_cases hz : DividesByZero i s
    · obtain ⟨a, b, rb, rfl, ha, hb, h0⟩ := hz
      refine ⟨a, b, rb, rfl, ha, hb, h0, ?_⟩
      cases hr : s.engineReads (opcodeOf .mod) with
      | error f =>
        cases (State.cycle_reads_error hr).symm.trans ht
        exact absurd hdiv (State.raise_records_no_division (hr ▸ s.engineReads_raisesBoundsOnly _) ia)
      | ok _ =>
        cases (exec_mod_zero (ra := ⟨a.toNat, ha⟩) hr rfl hb h0).symm.trans ht
        rfl
    · obtain ⟨h, he, hplain⟩ := exec_plain hz
      exact absurd hdiv (State.cycle_records_no_division hs hplain (he ▸ ht) ia)

end Sys2Proof.Machine
end

section
/-! The decoder and the encoder (`spec/30_encoding.md` R50 to R58): bytes decode to an instruction exactly when the
instruction's own bytes come first. -/

namespace Sys2Proof

/-- The encoding of an instruction is made of its opcode byte and the operand bytes it was decoded from. -/
theorem encode_withOperands (m : Mnemonic) (b1 b2 : Byte) :
    encode (m.withOperands b1 b2) = [opcodeOf m, b1, b2].take (1 + m.format.operandBytes) := by
  cases m <;> rfl

theorem encode_length (i : Instr) : (encode i).length = 1 + i.mnemonic.format.operandBytes := by
  rw [encode, List.length_cons, Instr.operands_length, Nat.add_comm]

theorem encode_length_le (i : Instr) : (encode i).length ≤ 3 := (Laws.EncodedLength.of_format i).2.2

/-- Operand bytes that are right where the instruction has one give back the instruction. -/
theorem Instr.withOperands_of_getD {i : Instr} {b1 b2 : Byte} (h1 : 0 < i.operands.length → b1 = i.operands.getD 0 0)
    (h2 : 1 < i.operands.length → b2 = i.operands.getD 1 0) : i.mnemonic.withOperands b1 b2 = i := by
  cases i <;> simp_all [Instr.operands, Instr.mnemonic, Mnemonic.withOperands]

/-- The first bytes of a sequence are those of its first three that count. -/
theorem getD_take_three (bs : List Byte) {n k : Nat} (hk : k < n) (hn : n ≤ 3) :
    ([bs.getD 0 0, bs.getD 1 0, bs.getD 2 0].take n).getD k 0 = bs.getD k 0 := by
  obtain rfl | rfl | rfl : k = 0 ∨ k = 1 ∨ k = 2 := by omega
  all_goals simp [List.getD, hk]

/-- Bytes decode to `i` exactly when they have the bytes of `i` at their front, a missing byte counting as 0. -/
theorem decodeBytes_eq_ok {bs : List Byte} {i : Instr} :
    decodeBytes bs = .ok i ↔ ∀ k < (encode i).length, bs.getD k 0 = (encode i).getD k 0 := by
  rw [decodeBytes, decode_eq_ok]
  constructor
  · rintro ⟨hop, hi⟩ k hk
    have he := encode_withOperands i.mnemonic (bs.getD 1 0) (bs.getD 2 0)
    rw [← hi, ← hop, ← encode_length] at he
    rw [he, getD_take_three bs hk (encode_length_le i)]
  · intro h
    have hlen : (encode i).length = i.operands.length + 1 := rfl
    exact ⟨h 0 (by omega), (Instr.withOperands_of_getD (fun h1 => h 1 (by omega)) fun h2 => h 2 (by omega)).symm⟩

/-- Settles O35: the bytes of `i` stand at the front of its encoding followed by anything. -/
theorem decodeOfEncode : Obligations.DecodeOfEncode := by
  intro i rest
  exact decodeBytes_eq_ok.2 fun k hk => List.getD_append _ _ _ _ hk

/-- Settles O36: bytes that decode to `i` have the bytes of `i` at their front, so dropping as many leaves the rest. -/
theorem encodeOfDecode : Obligations.EncodeOfDecode := by
  intro i bs hd hlen
  have htake : bs.take (encode i).length = encode i := by
    refine List.ext_getElem (List.length_take_of_le hlen) fun k hk hk' => ?_
    have hbyte := decodeBytes_eq_ok.1 hd k hk'
    rwa [List.getD_eq_getElem _ _ (by omega), List.getD_eq_getElem _ _ hk', ← List.getElem_take] at hbyte
  exact ⟨bs.drop (encode i).length, by rw [← htake, List.length_take_of_le hlen, List.take_append_drop]⟩

/-- The count field is the upper two bits of the opcode byte (R51). -/
theorem opCount_eq_div (ir : Byte) : opCount ir = ir.toNat / 64 := by
  have := Machine.Byte.toNat_lt ir
  simp only [opCount, BitVec.extractLsb'_toNat, Nat.shiftRight_eq_div_pow]
  omega

/-- Settles O38: the length law of every encoding, with the count field as a quotient. -/
theorem encodedLengthRule : Obligations.EncodedLengthRule := by
  intro i
  rw [← opCount_eq_div]
  exact Laws.EncodedLength.of_format i

/-- Settles O39: each word is evaluated by the decoder. -/
theorem specWordsDecode : Obligations.SpecWordsDecode := by
  refine ⟨rfl, rfl, rfl, rfl, rfl, rfl, rfl, rfl, rfl, rfl, rfl, rfl, rfl, rfl⟩

/-- A byte that is no instruction's opcode is rejected by its bit 5 alone. -/
theorem decode_of_no_opcode {ir : Byte} (b1 b2 : Byte) (h : ∀ m, opcodeOf m ≠ ir) :
    decode ir b1 b2 = .error (if ir.getLsbD 5 then .unsupportedALUOperation ir else .unknownOpcode ir) := by
  split
  · exact decode_unsupportedALUOperation b1 b2 h ‹_›
  · exact decode_unknownOpcode b1 b2 h (Bool.eq_false_of_not_eq_true ‹_›)

/-- Settles O37: every rejection goes by bit 5, and the 256 bytes are counted. -/
theorem opcodeCensus : Obligations.OpcodeCensus := by
  refine ⟨fun ir b1 b2 => decode_of_no_opcode b1 b2, ?_, ?_, ?_⟩
  · decide +kernel
  · decide +kernel
  · decide +kernel

end Sys2Proof
end

section
/-! Memory as a function from address to byte (`spec/20_memory.md` R21, R32, R38) and what reset and a load leave in it
(`spec/70_reset_and_hazards.md` R180, R184). -/

namespace Sys2Proof.Machine

theorem State.memWrite_out {s : State} {addr : Int} (v : Byte) (h : addr < 0 ∨ 256 ≤ addr) :
    s.memWrite addr v = .error (.outOfBoundsAccess .memoryAddress addr) := if_pos h

theorem State.memWrite_in {s : State} {addr : Int} (v : Byte) (h1 : 0 ≤ addr) (h2 : addr < 256) :
    s.memWrite addr v = .ok (s.setByte addr.toNat v) :=
  if_neg (not_or.2 ⟨Int.not_lt.2 h1, Int.not_le.2 h2⟩)

/-- Settles O32: outside the range the check raises; inside it the write is `setByte`, whose laws give the rest. -/
theorem memWriteRule : Obligations.MemWriteRule := by
  constructor
  · intro s addr v h
    exact State.memWrite_out v (by omega)
  · intro s addr v h1 h2
    exact ⟨s.setByte addr.toNat v, State.memWrite_in v h1 (by omega), rfl, State.byteAt_setByte_same s _ v,
      fun x hx => State.byteAt_setByte_ne s v hx,
      fun hwf => Memory.wf_write hwf (by simp only [memSize_eq]; omega) v⟩

/-! ### The canonical form determines the list -/

theorem Memory.wf_cons {c : Host.Cell} {m : Memory} :
    Memory.wf (c :: m) ↔ (∀ d ∈ m, c.1 < d.1) ∧ c.1 < Config.memSize ∧ c.2 ≠ unlistedByte ∧ Memory.wf m := by
  simp only [Memory.wf, List.pairwise_cons, List.forall_mem_cons]
  tauto

/-- Below its first address a canonical list reads as unlisted. -/
theorem Memory.read_before_first {c : Host.Cell} {m : Memory} (h : Memory.wf (c :: m)) {x : Nat} (hx : x < c.1) :
    Memory.read (c :: m) x = unlistedByte := by
  obtain ⟨hlt, -⟩ := Memory.wf_cons.1 h
  refine Memory.read_of_not_mem fun d hd => ?_
  obtain rfl | hd := List.mem_cons.1 hd
  · exact (Nat.ne_of_lt hx).symm
  · exact (Nat.ne_of_lt (hx.trans (hlt d hd))).symm

theorem Memory.read_first (c : Host.Cell) (m : Memory) : Memory.read (c :: m) c.1 = c.2 := if_pos rfl

/-- Two canonical lists that read alike begin at the same address: the lower one would read as listed in one only. -/
theorem Memory.first_le_of_read_eq {c d : Host.Cell} {m m' : Memory} (h : Memory.wf (c :: m))
    (h' : Memory.wf (d :: m')) (hread : ∀ x, Memory.read (c :: m) x = Memory.read (d :: m') x) : d.1 ≤ c.1 := by
  obtain ⟨-, -, hlisted, -⟩ := Memory.wf_cons.1 h
  refine Nat.not_lt.1 fun hlt => hlisted ?_
  rw [← Memory.read_first c m, hread, Memory.read_before_first h' hlt]

/-- The tails of canonical lists with the same first address read alike if the lists do. -/
theorem Memory.read_tail_eq {c d : Host.Cell} {m m' : Memory} (h : Memory.wf (c :: m)) (h' : Memory.wf (d :: m'))
    (hcd : c.1 = d.1) (hread : ∀ x, Memory.read (c :: m) x = Memory.read (d :: m') x) (x : Nat) :
    Memory.read m x = Memory.read m' x := by
  obtain ⟨hlt, -⟩ := Memory.wf_cons.1 h
  obtain ⟨hlt', -⟩ := Memory.wf_cons.1 h'
  by_cases hx : c.1 = x
  · rw [Memory.read_of_not_mem fun e he => hx ▸ (Nat.ne_of_lt (hlt e he)).symm,
      Memory.read_of_not_mem fun e he => hx ▸ hcd ▸ (Nat.ne_of_lt (hlt' e he)).symm]
  · have hx' := hread x
    rwa [Memory.read, Memory.read, if_neg hx, if_neg (hcd ▸ hx)] at hx'

/-- Settles O33, by induction on the lists: equal readings fix the first cell, and then the tails read alike. -/
theorem canonicalMemoryIsUnique : Obligations.CanonicalMemoryIsUnique := by
  intro m
  induction m with
  | nil =>
    intro m' _ h' hread
    cases m' with
    | nil => rfl
    | cons d m' =>
      obtain ⟨-, -, hlisted, -⟩ := Memory.wf_cons.1 h'
      exact absurd ((Memory.read_first d m').symm.trans (hread d.1).symm) hlisted
  | cons c m ih =>
    intro m' h h' hread
    obtain ⟨-, -, hlisted, hm⟩ := Memory.wf_cons.1 h
    cases m' with
    | nil => exact absurd ((Memory.read_first c m).symm.trans (hread c.1)) hlisted
    | cons d m' =>
      obtain ⟨-, -, -, hm'⟩ := Memory.wf_cons.1 h'
      have haddr : c.1 = d.1 :=
        Nat.le_antisymm (Memory.first_le_of_read_eq h' h fun x => (hread x).symm)
          (Memory.first_le_of_read_eq h h' hread)
      have hbyte : c.2 = d.2 := by rw [← Memory.read_first c m, hread, haddr, Memory.read_first]
      rw [Prod.ext haddr hbyte, ih m' hm hm' (Memory.read_tail_eq h h' haddr hread)]

/-! ### Reset and load -/

/-- Settles O56, item by item. -/
theorem resetState : Obligations.ResetState :=
  ⟨fun _ => rfl, by decide, rfl, rfl, rfl, rfl, rfl⟩

/-- Placing bytes changes memory alone. -/
theorem State.storeBytes_eq (s : State) (base : Nat) (bs : List Byte) :
    s.storeBytes base bs = { s with mem := (s.storeBytes base bs).mem } := by
  induction bs generalizing s base with
  | nil => rfl
  | cons b bs ih =>
    rw [State.storeBytes, ih]
    split <;> rfl

/-- Placing bytes leaves every address below the first one alone. -/
theorem State.byteAt_storeBytes_below (s : State) {base x : Nat} (bs : List Byte) (h : x < base) :
    (s.storeBytes base bs).byteAt x = s.byteAt x := by
  induction bs generalizing s base with
  | nil => rfl
  | cons b bs ih =>
    rw [State.storeBytes, ih _ (Nat.lt_succ_of_lt h)]
    split
    · exact State.byteAt_setByte_ne s b (Nat.ne_of_lt h)
    · rfl

/-- Bytes placed in zeroed memory read back one by one, with 0 beyond the last. -/
theorem State.byteAt_storeBytes (s : State) (base : Nat) (bs : List Byte) (k : Nat)
    (hfit : base + bs.length ≤ Config.memSize) (hzero : ∀ x, base ≤ x → s.byteAt x = 0) :
    (s.storeBytes base bs).byteAt (base + k) = bs.getD k 0 := by
  induction bs generalizing s base k with
  | nil => exact hzero _ (Nat.le_add_right base k)
  | cons b bs ih =>
    rw [List.length_cons] at hfit
    rw [State.storeBytes, if_pos (by omega)]
    cases k with
    | zero => rw [State.byteAt_storeBytes_below _ _ (by omega)]; exact State.byteAt_setByte_same s base b
    | succ k =>
      have htail : ∀ x, base + 1 ≤ x → (s.setByte base b).byteAt x = 0 := fun x hx => by
        rw [State.byteAt_setByte_ne s b (by omega), hzero x (by omega)]
      rw [show base + (k + 1) = base + 1 + k by omega, ih _ (base + 1) k (by omega) htail]
      rfl

theorem load_of_fits {p : List Byte} (h : p.length ≤ 256) : load p = .next (State.reset.storeBytes loadBase p) :=
  if_pos h

theorem load_of_too_long {p : List Byte} (h : 256 < p.length) : load p = .refused .programTooLong :=
  if_neg (Nat.not_le.2 h)

/-- Settles O57: a program that fits is placed from address 0 into reset's zeroed memory. -/
theorem loadRule : Obligations.LoadRule := by
  refine ⟨fun p hp => ⟨_, load_of_fits hp, State.storeBytes_eq _ _ _, fun x => ?_⟩, fun p hp => load_of_too_long hp⟩
  have hbyte := State.reset.byteAt_storeBytes loadBase p x (by simpa [loadBase] using hp) fun _ _ => rfl
  rwa [loadBase, Nat.zero_add] at hbyte

/-- Settles O58, clause by clause. -/
theorem invariantAtReset : Obligations.InvariantAtReset where
  memory := Memory.wf_nil
  flags := .inl rfl
  counter := by decide
  stopped := by decide

/-- Settles O59: a load keeps memory canonical (`Memory.storeBytes_wf`) and leaves every other item as reset left it. -/
theorem invariantAfterLoad : Obligations.InvariantAfterLoad := by
  intro p s hload
  by_cases hp : p.length ≤ 256
  · cases (load_of_fits hp).symm.trans hload
    rw [State.storeBytes_eq]
    exact { invariantAtReset with memory := Memory.storeBytes_wf Memory.wf_nil _ _ }
  · cases (load_of_too_long (Nat.not_le.1 hp)).symm.trans hload

end Sys2Proof.Machine
end

section
/-! What an instruction can do, said once (`exec_cases`), and from it the frame of each item of the state: which
instructions change the registers, `fl`, the output, memory and the run state (`spec/10_state.md` R11 to R21), and where
`pc` goes (`spec/40_engine.md` R76). -/

namespace Sys2Proof

/-- The instructions with the sets-PC bit (R51, R55). -/
theorem opSetsPc_opcodeOf {m : Mnemonic} : opSetsPc (opcodeOf m) = true ↔ m ∈ [.call, .ret, .jmp, .jeq, .jne] := by
  cases m <;> decide

/-- The registers that an instruction may write: the one its first operand byte names, and the stack pointer. -/
def Instr.mayWrite : Instr → RegIdx → Prop
  | .add d _, q | .mul d _, q | .mod d _, q | .and d _, q | .or d _, q | .xor d _, q | .shl d _, q | .shr d _, q
  | .not d, q | .ldi d _, q => q.val = d.toNat
  | .push _, q | .call _, q | .ret, q => q = Machine.spIndex
  | .pop r, q => q = Machine.spIndex ∨ q.val = r.toNat
  | .cmp _ _, _ | .hlt, _ | .st _ _, _ | .prn _, _ | .jmp _, _ | .jeq _, _ | .jne _, _ => False

/-- The instruction is a conditional jump that is not taken in `s` (R134, R135). -/
def Instr.skips (s : Machine.State) : Instr → Prop
  | .jeq _ => s.equalFlag = false
  | .jne _ => s.equalFlag = true
  | _ => False

end Sys2Proof

namespace Sys2Proof.Machine

open Sys2Proof.Claims

/-! ### The inversion of `exec` -/

/-- The states in which an instruction that takes no fault can leave the machine. -/
inductive Completes (s : State) : Instr → State → Prop where
  | register {i : Instr} {q : RegIdx} (v : Byte) (hw : i.mayWrite q) :
      Completes s i ((s.setReg q v).engineAdvance (opcodeOf i.mnemonic))
  | flags (a b va vb : Byte) :
      Completes s (.cmp a b) ((s.setFlags (compareFlags va vb)).engineAdvance (opcodeOf .cmp))
  | halt : Completes s .hlt ((s.stop .halted).engineAdvance (opcodeOf .hlt))
  | print {r : Byte} {rr : RegIdx} (hr : r.toNat = rr.val) :
      Completes s (.prn r) ((s.emit (s.reg rr)).engineAdvance (opcodeOf .prn))
  | store {a : Byte} {ra : RegIdx} (b v : Byte) (ha : a.toNat = ra.val) :
      Completes s (.st a b) ((s.setByte (s.reg ra).toNat v).engineAdvance (opcodeOf .st))
  | push {nsp : Byte} (r v : Byte) (hn : spDown s.sp = .ok nsp) :
      Completes s (.push r) (((s.setReg spIndex nsp).setByte nsp.toNat v).engineAdvance (opcodeOf .push))
  | pop {r : Byte} {rr : RegIdx} (v nsp : Byte) (hr : r.toNat = rr.val) :
      Completes s (.pop r) (((s.setReg rr v).setReg spIndex nsp).engineAdvance (opcodeOf .pop))
  | call {nsp : Byte} (r v w : Byte) (hn : spDown s.sp = .ok nsp) :
      Completes s (.call r) (((s.setReg spIndex nsp).setByte nsp.toNat v).setPc (targetOf w))
  | ret (nsp w : Byte) : Completes s .ret ((s.setReg spIndex nsp).setPc (targetOf w))
  | jump {i : Instr} (w : Byte) (hi : i.mnemonic ∈ [.jmp, .jeq, .jne]) : Completes s i (s.setPc (targetOf w))
  | skip {i : Instr} (hi : i.mnemonic ∈ [.jmp, .jeq, .jne]) : Completes s i (s.setPc (s.pc + 2))

/-- A binary ALU operation takes a fault, or writes the register that its first operand byte names. -/
theorem aluBinary_completes {s t : State} {i : Instr} {m : Mnemonic} {f : Nat → Nat → Check Nat} {a b : Byte}
    (h : s.aluBinary m f a b = .next t) (hm : i.mnemonic = m) (hw : ∀ q : RegIdx, q.val = a.toNat → i.mayWrite q) :
    (∃ g, t = s.raise g) ∨ Completes s i t := by
  subst hm
  obtain hf | ⟨ra, -, v, ha, -, -, rfl⟩ := State.aluBinary_cases h
  · exact .inl hf
  · exact .inr (.register _ (hw ra ha.symm))

/-- Everything an instruction can do: it takes a fault in the state it started from, or it completes. -/
theorem exec_cases {i : Instr} {s t : State} (h : exec i s = .next t) : (∃ f, t = s.raise f) ∨ Completes s i t := by
  cases i with
  | add | mul | mod | and | or | xor | shl | shr =>
    simp only [exec, execAdd, execMul, execMod, execAnd, execOr, execXor, execShl, execShr] at h
    exact aluBinary_completes h rfl fun _ => id
  | not => exact (execNot_cases h).imp_right fun ⟨_, ha, ht⟩ => ht ▸ .register _ ha.symm
  | ldi => exact (execLdi_cases h).imp_right fun ⟨_, hr, ht⟩ => ht ▸ .register _ hr.symm
  | cmp => exact (execCmp_cases h).imp_right fun ⟨_, _, _, _, ht⟩ => ht ▸ .flags ..
  | hlt => cases (execHlt_eq s).symm.trans h; exact .inr .halt
  | prn => exact (execPrn_cases h).imp_right fun ⟨_, hr, ht⟩ => ht ▸ .print hr
  | st => exact (execSt_cases h).imp_right fun ⟨_, _, ha, _, ht⟩ => ht ▸ .store _ _ ha
  | push => exact (execPush_cases h).imp_right fun ⟨_, _, _, hn, ht⟩ => ht ▸ .push _ _ hn
  | pop r =>
    obtain hf | ⟨rr, nsp, hr, -, rfl⟩ := execPop_cases h
    · exact .inl hf
    · split
      · exact .inr (.register (i := .pop r) nsp (.inl rfl))
      · exact .inr (.pop _ nsp hr)
  | call => exact (execCall_cases h).imp_right fun ⟨_, _, _, _, _, hn, ht⟩ => ht ▸ .call _ _ _ hn
  | ret => exact (execRet_cases h).imp_right fun ⟨_, _, ht⟩ => ht ▸ .ret ..
  | jmp => exact (execJmp_cases h).imp_right fun ⟨_, _, ht⟩ => ht ▸ .jump _ (by simp [Instr.mnemonic])
  | jeq =>
    obtain hf | ⟨-, rr, -, rfl⟩ | ⟨-, rfl⟩ := execJeq_cases h
    · exact .inl hf
    · exact .inr (.jump _ (by simp [Instr.mnemonic]))
    · exact .inr (.skip (by simp [Instr.mnemonic]))
  | jne =>
    obtain hf | ⟨-, rr, -, rfl⟩ | ⟨-, rfl⟩ := execJne_cases h
    · exact .inl hf
    · exact .inr (.jump _ (by simp [Instr.mnemonic]))
    · exact .inr (.skip (by simp [Instr.mnemonic]))

/-! ### The run state -/

/-- No completing instruction but HLT changes the run state (R18, R19). -/
theorem Completes.runState {i : Instr} {s t : State} (h : Completes s i t) (hi : i ≠ .hlt) :
    t.running = s.running ∧ t.haltReason = s.haltReason := by
  cases h
  case halt => exact absurd rfl hi
  all_goals simp

theorem State.raise_runStateFrame (s : State) (f : Raise) : RunStateFrame s (s.raise f) :=
  .inr ⟨f.at s.pc, f.isFault_at s.pc, rfl⟩

theorem exec_runStateFrame {i : Instr} {s t : State} (h : exec i s = .next t) (hi : i.mnemonic ≠ .hlt) :
    RunStateFrame s t := by
  obtain ⟨f, rfl⟩ | hc := exec_cases h
  · exact s.raise_runStateFrame f
  · exact .inl (hc.runState (by rintro rfl; exact hi rfl))

/-- Settles O12: HLT's cycle is evaluated, a fault records no Halted, and no other instruction records anything. -/
theorem hltRule : Obligations.HltRule := by
  refine ⟨rfl, fun s => rfl, fun i s t hs ht hhalt => ?_⟩
  by_contra hi
  obtain ⟨f, rfl⟩ | hc := exec_cases ht
  · exact Raise.at_ne_halted f s.pc hhalt
  · exact hs ((hc.runState hi).2.symm.trans hhalt)

/-- Settles O46: `step_next` while RUNNING, and the front of the cycle refuses a HALTED machine. -/
theorem stepExactlyWhileRunning : Obligations.StepExactlyWhileRunning :=
  fun s => ⟨step_next, fun h => by simp [step, State.fetch, h]⟩

/-- Settles O49: a cycle takes a fault, which is precise, or runs an instruction, and only HLT stops by completing. -/
theorem stopsArePrecise : Obligations.StopsArePrecise := by
  intro s t ht hstop
  obtain ⟨hrun, ⟨f, rfl⟩ | ⟨-, i, -, hexec⟩⟩ := step_cases ht
  · exact .inr ⟨f, rfl, f.isFault_at s.pc⟩
  · obtain ⟨f, rfl⟩ | hc := exec_cases hexec
    · exact .inr ⟨f, rfl, f.isFault_at s.pc⟩
    · left
      by_cases hi : i = .hlt
      · subst hi
        exact Host.Outcome.next.inj (hexec.symm.trans (hltRule.2.1 s))
      · have hsame := (hc.runState hi).1
        simp [hstop, hrun] at hsame

/-! ### `fl`, the output and memory -/

/-- Settles O51: neither a fault nor a completing instruction other than CMP touches `fl`. -/
theorem flagsWrittenOnlyByCmp : Obligations.FlagsWrittenOnlyByCmp := by
  intro i s t hi ht
  obtain ⟨f, rfl⟩ | hc := exec_cases ht
  · rfl
  · cases hc
    case flags => exact absurd rfl hi
    all_goals simp

theorem exec_fl {i : Instr} {s t : State} (h : exec i s = .next t) (hi : i.mnemonic ≠ .cmp) : t.fl = s.fl :=
  flagsWrittenOnlyByCmp i s t hi h

/-- Settles O52: neither a fault nor a completing instruction other than PRN touches the output. -/
theorem outputWrittenOnlyByPrn : Obligations.OutputWrittenOnlyByPrn := by
  intro i s t ht
  obtain ⟨f, rfl⟩ | hc := exec_cases ht
  · exact .inl rfl
  · cases hc
    case print r rr hr => exact .inr ⟨r, rr, rfl, hr, rfl⟩
    all_goals exact .inl (by simp)

theorem exec_out {i : Instr} {s t : State} (h : exec i s = .next t) (hi : i.mnemonic ≠ .prn) : t.out = s.out := by
  obtain hout | ⟨r, -, rfl, -⟩ := outputWrittenOnlyByPrn i s t h
  · exact hout
  · exact absurd rfl hi

/-- Settles O53: neither a fault nor a completing instruction other than the three stores touches memory. -/
theorem memoryWrittenOnlyByStores : Obligations.MemoryWrittenOnlyByStores := by
  intro i s t ht hmem
  obtain ⟨f, rfl⟩ | hc := exec_cases ht
  · exact absurd rfl hmem
  · cases hc
    case store => exact .inl rfl
    case push => exact .inr (.inl rfl)
    case call => exact .inr (.inr rfl)
    all_goals simp at hmem

theorem exec_sameBytes {i : Instr} {s t : State} (h : exec i s = .next t)
    (hi : i.mnemonic ≠ .st ∧ i.mnemonic ≠ .push ∧ i.mnemonic ≠ .call) : SameBytes s t := by
  have hmem : t.mem = s.mem := by
    by_contra hne
    have := memoryWrittenOnlyByStores i s t h hne
    tauto
  exact fun x => congrArg (Memory.read · x) hmem

/-- The frame shared by every instruction that is neither CMP, PRN, HLT nor a store. -/
theorem exec_frame {i : Instr} {s t : State} (h : exec i s = .next t)
    (hi : i.mnemonic ∉ [.cmp, .prn, .hlt, .st, .push, .call]) :
    t.fl = s.fl ∧ t.out = s.out ∧ SameBytes s t ∧ RunStateFrame s t := by
  simp only [List.mem_cons, List.not_mem_nil, or_false, not_or] at hi
  obtain ⟨hcmp, hprn, hhlt, hstore⟩ := hi
  exact ⟨exec_fl h hcmp, exec_out h hprn, exec_sameBytes h hstore, exec_runStateFrame h hhlt⟩

/-! ### The registers -/

/-- A register that an instruction may not write is as before. -/
theorem exec_reg_eq {i : Instr} {s t : State} {q : RegIdx} (h : exec i s = .next t) (hq : ¬ i.mayWrite q) :
    t.reg q = s.reg q := by
  obtain ⟨f, rfl⟩ | hc := exec_cases h
  · rfl
  · cases hc
    case register r v hw =>
      have hne : q ≠ r := by rintro rfl; exact hq hw
      simp [State.reg_setReg_ne, hne]
    case push =>
      have hne : q ≠ spIndex := hq
      simp [State.reg_setReg_ne, hne]
    case pop r rr v nsp hr =>
      have hsp : q ≠ spIndex := fun e => hq (.inl e)
      have hne : q ≠ rr := fun e => hq (.inr (e ▸ hr.symm))
      simp [State.reg_setReg_ne, hsp, hne]
    case call | ret =>
      have hne : q ≠ spIndex := hq
      simp [State.reg_setReg_ne, hne]
    all_goals simp

theorem exec_regs_eq {i : Instr} {s t : State} (h : exec i s = .next t) (hi : ∀ q, ¬ i.mayWrite q) : t.regs = s.regs :=
  Vector.ext fun q hq => exec_reg_eq h (hi ⟨q, hq⟩)

/-! ### The frames, instruction by instruction -/

/-- Settles O26: each of the ten may write only the register its first byte names, and none writes another item. -/
theorem registerWriterFrame : Obligations.RegisterWriterFrame := by
  intro i d b s t hi ht
  obtain ⟨hw, hm⟩ : (∀ q, i.mayWrite q → q.val = d.toNat) ∧ i.mnemonic ∉ [.cmp, .prn, .hlt, .st, .push, .call] := by
    obtain rfl | rfl | rfl | rfl | rfl | rfl | rfl | rfl | rfl | rfl := hi
    all_goals exact ⟨fun _ => id, by simp [Instr.mnemonic]⟩
  exact ⟨fun q hq => exec_reg_eq ht (mt (hw q) hq), exec_frame ht hm⟩

/-- Settles O27: none of the four may write a register, and only the CMP writes another item, which is `fl`. -/
theorem compareAndJumpFrame : Obligations.CompareAndJumpFrame := by
  intro i a b s t hi ht
  obtain ⟨hw, hm⟩ : (∀ q, ¬ i.mayWrite q) ∧ i.mnemonic ∉ [.prn, .hlt, .st, .push, .call] := by
    obtain rfl | rfl | rfl | rfl := hi
    all_goals exact ⟨fun _ => id, by simp [Instr.mnemonic]⟩
  have hcmp (hne : i ≠ .cmp a b) : i.mnemonic ≠ .cmp := by
    obtain rfl | rfl | rfl | rfl := hi
    · exact absurd rfl hne
    all_goals simp [Instr.mnemonic]
  simp only [List.mem_cons, List.not_mem_nil, or_false, not_or] at hm
  obtain ⟨hprn, hhlt, hstore⟩ := hm
  exact ⟨exec_regs_eq ht hw, exec_out ht hprn, exec_sameBytes ht hstore, exec_runStateFrame ht hhlt,
    fun hne => exec_fl ht (hcmp hne)⟩

/-- Settles O28: neither may write a register, `fl` or memory; PRN leaves the run state alone and HLT the output. -/
theorem printAndHaltFrame : Obligations.PrintAndHaltFrame := by
  intro r s t
  constructor
  · intro ht
    exact ⟨exec_regs_eq ht fun _ => id, exec_fl ht nofun, exec_sameBytes ht ⟨nofun, nofun, nofun⟩,
      exec_runStateFrame ht nofun⟩
  · intro ht
    exact ⟨exec_regs_eq ht fun _ => id, exec_fl ht nofun, exec_out ht nofun,
      exec_sameBytes ht ⟨nofun, nofun, nofun⟩⟩

/-- An address outside the byte that ST stores to reads as before. -/
theorem execSt_byteAt {a b : Byte} {s t : State} {x : Nat} (h : execSt a b s = .next t)
    (hx : ∀ ra : RegIdx, regIndex a = .ok ra → x ≠ (s.reg ra).toNat) : t.byteAt x = s.byteAt x := by
  obtain ⟨f, rfl⟩ | ⟨ra, rb, ha, -, rfl⟩ := execSt_cases h
  · rfl
  · simp [State.byteAt_setByte_ne s _ (hx ra (regIndex_eq_ok.2 ha))]

/-- An address outside the byte that a PUSH or CALL stores to reads as before. -/
theorem exec_stack_byteAt {i : Instr} {r : Byte} {s t : State} {x : Nat} (hi : i = .push r ∨ i = .call r)
    (h : exec i s = .next t) (hx : ∀ nsp : Byte, spDown s.sp = .ok nsp → x ≠ nsp.toNat) : t.byteAt x = s.byteAt x := by
  obtain rfl | rfl := hi
  · obtain ⟨f, rfl⟩ | ⟨rr, nsp, -, hn, rfl⟩ := execPush_cases h
    · rfl
    · simp [State.byteAt_setByte_ne _ _ (hx nsp hn)]
  · obtain ⟨f, rfl⟩ | ⟨rr, ret, nsp, -, -, hn, rfl⟩ := execCall_cases h
    · rfl
    · simp [State.byteAt_setByte_ne _ _ (hx nsp hn)]

/-- Settles O29: the items' frames for ST, PUSH and CALL, and the address each of them stores to. -/
theorem storeFrame : Obligations.StoreFrame := by
  constructor
  · intro a b s t ht
    exact ⟨exec_regs_eq ht fun _ => id, exec_fl ht nofun, exec_out ht nofun,
      exec_runStateFrame ht nofun, fun x => execSt_byteAt ht⟩
  · intro i r s t hi ht
    obtain ⟨hw, hcmp, hprn, hhlt⟩ : (∀ q, i.mayWrite q → q = spIndex) ∧ i.mnemonic ≠ .cmp ∧ i.mnemonic ≠ .prn ∧
        i.mnemonic ≠ .hlt := by
      obtain rfl | rfl := hi
      all_goals exact ⟨fun _ => id, nofun, nofun, nofun⟩
    exact ⟨fun q hq => exec_reg_eq ht (mt (hw q) hq), exec_fl ht hcmp, exec_out ht hprn,
      exec_runStateFrame ht hhlt, fun x => exec_stack_byteAt hi ht⟩

/-- Settles O30: POP and RET may write only the registers named, and neither writes another item. -/
theorem popFrame : Obligations.PopFrame := by
  constructor
  · intro r s t ht
    exact ⟨fun q hsp hq => exec_reg_eq ht (not_or.2 ⟨hsp, hq⟩), exec_frame ht (by simp [Instr.mnemonic])⟩
  · intro s t ht
    exact ⟨fun q hsp => exec_reg_eq ht hsp, exec_frame ht (by simp [Instr.mnemonic])⟩

/-! ### `pc` -/

theorem State.engineAdvance_pc {u : State} {ir : Byte} (h : opSetsPc ir = false) :
    (u.engineAdvance ir).pc = u.pc + BitVec.ofNat 9 (1 + opCount ir) := by
  simp [State.engineAdvance, h]

/-- Settles O50: a fault leaves `pc`; of the completing instructions those without the sets-PC bit leave `pc` to the
default advance. -/
theorem defaultAdvance : Obligations.DefaultAdvance := by
  intro i s t ht hset
  have hno : i.mnemonic ∉ [.call, .ret, .jmp, .jeq, .jne] := fun hm =>
    Bool.false_ne_true (hset.symm.trans (opSetsPc_opcodeOf.2 hm))
  rw [(Laws.EncodedLength.of_format i).1]
  obtain ⟨f, rfl⟩ | hc := exec_cases ht
  · exact .inr ⟨f.at s.pc, f.isFault_at s.pc, rfl⟩
  · left
    cases hc
    case call | ret => exact absurd (by simp [Instr.mnemonic]) hno
    case jump hi | skip hi => exact absurd (List.mem_cons_of_mem _ (List.mem_cons_of_mem _ hi)) hno
    all_goals exact State.engineAdvance_pc hset

end Sys2Proof.Machine
end

section
/-! The operand reads of a cycle at the end of memory (`spec/40_engine.md` R73, R74; `spec/42_system_data.md` R110):
an instruction that reads its operands faults there before it uses any of them. From this the bound on `pc`, and with
it the invariant. -/

namespace Sys2Proof

/-- The instructions on the ALU path (R51, R55). -/
theorem opIsAlu_opcodeOf {m : Mnemonic} :
    opIsAlu (opcodeOf m) = true ↔ m ∈ [.add, .mul, .mod, .cmp, .and, .not, .or, .xor, .shl, .shr] := by
  cases m <;> decide

end Sys2Proof

namespace Sys2Proof.Machine

/-! ### Operand bytes beyond memory -/

/-- The first operand address beyond memory is always 256, and reading it ends a handler's reads. -/
theorem State.handlerReads_out {s : State} {n : Nat} (hp : s.pc.toNat ≤ 255) (hn : 256 ≤ s.pc.toNat + n) :
    s.handlerReads n = .error (.outOfBoundsAccess .memoryAddress 256) := by
  induction n with
  | zero => omega
  | succ n ih =>
    rw [State.handlerReads]
    by_cases h : 256 ≤ s.pc.toNat + n
    · rw [ih h, Check.error_bind]
    · have h256 : s.pc.toNat + (n + 1) = 256 := by omega
      rw [State.handlerReads_in (by omega), Check.ok_bind, State.operandRead_out hn, h256]
      rfl

/-- On the non-ALU path a handler whose operand reads leave memory takes the fault at 256. -/
theorem State.cycle_reads_out {s : State} {m : Mnemonic} {n : Nat} {h : Check State} (hp : s.pc.toNat ≤ 255)
    (hn : 256 ≤ s.pc.toNat + n) (halu : opIsAlu (opcodeOf m) = false) :
    s.cycle m (do s.handlerReads n; h) = .next (s.raise (.outOfBoundsAccess .memoryAddress 256)) :=
  State.cycle_error (State.engineReads_nonAlu halu) (by rw [State.handlerReads_out hp hn, Check.error_bind])

/-- An ALU instruction faults from address 254 on (R73, decision D8). -/
theorem exec_alu_out {i : Instr} {s : State} (halu : opIsAlu (opcodeOf i.mnemonic) = true) (h1 : 254 ≤ s.pc.toNat)
    (h2 : s.pc.toNat ≤ 255) : exec i s = .next (s.raise (.outOfBoundsAccess .memoryAddress 256)) := by
  obtain ⟨h, he⟩ := exec_eq_cycle i s
  rw [he, State.cycle_reads_error (State.engineReads_out halu h1 h2)]

/-- A conditional jump that is not taken goes two on, wherever it stands and whatever its operand (decision D14). -/
theorem exec_of_skips {i : Instr} {s : State} (h : i.skips s) : exec i s = .next (s.setPc (s.pc + 2)) := by
  cases i with
  | jeq r => exact State.cycle_ok (m := .jeq) (State.engineReads_nonAlu rfl) (if_neg (Bool.eq_false_iff.1 h))
  | jne r => exact State.cycle_ok (m := .jne) (State.engineReads_nonAlu rfl) (if_pos h)
  | _ => exact h.elim

/-- An instruction that reads its operands, one of them beyond memory, faults at address 256. -/
theorem exec_operands_out {i : Instr} {s : State} (hp : s.pc.toNat ≤ 255) (hn : 256 ≤ s.pc.toNat + i.operands.length)
    (hs : ¬ i.skips s) : exec i s = .next (s.raise (.outOfBoundsAccess .memoryAddress 256)) := by
  by_cases halu : opIsAlu (opcodeOf i.mnemonic) = true
  · have hlen : i.operands.length ≤ 2 := i.operands_length ▸ i.mnemonic.format.operandBytes_le
    exact exec_alu_out halu (by omega) hp
  rw [opIsAlu_opcodeOf] at halu
  cases i with
  | add | mul | mod | cmp | and | not | or | xor | shl | shr => exact absurd (by simp [Instr.mnemonic]) halu
  | hlt | ret => simp only [Instr.operands, List.length_nil] at hn; omega
  | ldi | st | push | pop | prn | call | jmp =>
    simp only [exec, execLdi, execSt, execPush, execPop, execPrn, execCall, execJmp, State.jumpTo]
    exact State.cycle_reads_out hp hn rfl
  | jeq r =>
    have he : s.equalFlag = true := Bool.eq_true_of_not_eq_false hs
    simp only [exec, execJeq, if_pos he]
    exact State.cycle_reads_out hp hn rfl
  | jne r =>
    have he : s.equalFlag = false := Bool.eq_false_of_not_eq_true hs
    simp only [exec, execJne, he, Bool.false_eq_true, if_false]
    exact State.cycle_reads_out hp hn rfl

/-! ### What stands for such a byte does not matter -/

theorem Mnemonic.operands_withOperands_length (m : Mnemonic) (b1 b2 : Byte) :
    (m.withOperands b1 b2).operands.length = m.format.operandBytes := by
  rw [Instr.operands_length, Mnemonic.mnemonic_withOperands]

/-- A byte that the format does not have is not used. -/
theorem Mnemonic.withOperands_eq_of_le_one {m : Mnemonic} (h : m.format.operandBytes ≤ 1) (b1 b2 c2 : Byte) :
    m.withOperands b1 b2 = m.withOperands b1 c2 := by
  cases m
  case add | mul | mod | cmp | and | or | xor | shl | shr | ldi | st => exact absurd h (by decide)
  all_goals rfl

theorem Mnemonic.withOperands_eq_of_zero {m : Mnemonic} (h : m.format.operandBytes = 0) (b1 b2 c1 c2 : Byte) :
    m.withOperands b1 b2 = m.withOperands c1 c2 := by
  cases m
  case hlt | ret => rfl
  all_goals exact absurd h (by decide)

/-- Whether a jump is taken does not depend on its operand byte. -/
theorem Mnemonic.skips_withOperands {m : Mnemonic} {s : State} {b1 b2 : Byte} (c1 c2 : Byte)
    (h : (m.withOperands b1 b2).skips s) : (m.withOperands c1 c2).skips s := by
  cases m
  case jeq | jne => exact h
  all_goals exact h.elim

/-- With an operand byte beyond memory, the outcome is the same for all operand bytes: the jump is not taken, or the
instruction faults. -/
theorem exec_withOperands_out {m : Mnemonic} {s : State} (b1 b2 c1 c2 : Byte) (hp : s.pc.toNat ≤ 255)
    (hn : 256 ≤ s.pc.toNat + m.format.operandBytes) :
    exec (m.withOperands b1 b2) s = exec (m.withOperands c1 c2) s := by
  by_cases hs : (m.withOperands b1 b2).skips s
  · rw [exec_of_skips hs, exec_of_skips (Mnemonic.skips_withOperands c1 c2 hs)]
  · have hs' : ¬ (m.withOperands c1 c2).skips s := mt (Mnemonic.skips_withOperands b1 b2) hs
    rw [exec_operands_out hp (by rwa [Mnemonic.operands_withOperands_length]) hs,
      exec_operands_out hp (by rwa [Mnemonic.operands_withOperands_length]) hs']

/-- Settles O42: an operand byte beyond memory is not one of the instruction's, or has no effect on its outcome. -/
theorem operandBeyondMemoryNeverMatters : Obligations.OperandBeyondMemoryNeverMatters := by
  constructor
  · intro s ir b1 b2 c1 c2 i j hp hi hj
    obtain ⟨hir, hi⟩ := decode_eq_ok.1 hi
    obtain ⟨hjr, hj⟩ := decode_eq_ok.1 hj
    rw [← opcodeOf_injective (hir.symm.trans hjr)] at hj
    rw [hi, hj]
    by_cases h0 : i.mnemonic.format.operandBytes = 0
    · rw [Mnemonic.withOperands_eq_of_zero h0 b1 b2 c1 c2]
    · exact exec_withOperands_out b1 b2 c1 c2 (by omega) (by omega)
  · intro s ir b1 b2 c2 i j hp hi hj
    obtain ⟨hir, hi⟩ := decode_eq_ok.1 hi
    obtain ⟨hjr, hj⟩ := decode_eq_ok.1 hj
    rw [← opcodeOf_injective (hir.symm.trans hjr)] at hj
    rw [hi, hj]
    by_cases h1 : i.mnemonic.format.operandBytes ≤ 1
    · rw [Mnemonic.withOperands_eq_of_le_one h1 b1 b2 c2]
    · exact exec_withOperands_out b1 b2 b1 c2 (by omega) (by omega)

/-! ### The invariant -/

theorem PcWord.toNat_add_two {p : PcWord} (h : p.toNat < 256) : (p + 2).toNat = p.toNat + 2 :=
  PcWord.toNat_add_ofNat (n := 2) (by omega)

/-- The default advance past operand bytes in memory leaves `pc` at most 256. -/
theorem State.engineAdvance_counter {u : State} {ir : Byte} (h : u.pc.toNat + opCount ir < 256) :
    (u.engineAdvance ir).pc.toNat ≤ 257 := by
  unfold State.engineAdvance
  split
  · omega
  · rw [State.setPc_pc, PcWord.toNat_add_ofNat (by omega)]
    omega

theorem targetOf_counter (v : Byte) : (targetOf v).toNat ≤ 257 := by
  have := Byte.toNat_lt v
  rw [targetOf_toNat]
  omega

/-- An instruction with its operand bytes in memory that completes leaves `pc` at most 257. -/
theorem Completes.counter {i : Instr} {s t : State} (h : Completes s i t)
    (hn : s.pc.toNat + i.operands.length < 256) : t.pc.toNat ≤ 257 := by
  rw [Instr.operands_length, ← opCount_opcodeOf] at hn
  cases h
  case call | ret | jump => exact targetOf_counter _
  case skip => rw [State.setPc_pc, PcWord.toNat_add_two (by omega)]; omega
  all_goals exact State.engineAdvance_counter hn

/-- An instruction executed at an address leaves `pc` in 0..257 (R17): a jump not taken goes two on, and any other
instruction whose operands leave memory faults. -/
theorem exec_counter {i : Instr} {s t : State} (hp : s.pc.toNat < 256) (h : exec i s = .next t) : t.pc.toNat ≤ 257 := by
  by_cases hs : i.skips s
  · cases (exec_of_skips hs).symm.trans h
    rw [State.setPc_pc, PcWord.toNat_add_two hp]
    omega
  · by_cases hn : s.pc.toNat + i.operands.length < 256
    · obtain ⟨f, rfl⟩ | hc := exec_cases h
      · rw [State.raise_pc]; omega
      · exact hc.counter hn
    · cases (exec_operands_out (by omega) (Nat.not_lt.1 hn) hs).symm.trans h
      rw [State.raise_pc]
      omega

/-- A completing instruction keeps memory canonical: it leaves memory alone or writes a cell whose address is a byte. -/
theorem Completes.memory_wf {i : Instr} {s t : State} (h : Completes s i t) (hs : Memory.wf s.mem) :
    Memory.wf t.mem := by
  cases h
  case store | push | call => simpa using Memory.wf_write hs (Byte.toNat_lt _) _
  all_goals simpa using hs

/-- A completing instruction leaves `fl` alone or writes one of CMP's three outcomes. -/
theorem Completes.flags_cases {i : Instr} {s t : State} (h : Completes s i t) :
    t.fl = s.fl ∨ t.fl = flagOnly flE ∨ t.fl = flagOnly flG ∨ t.fl = flagOnly flL := by
  cases h
  case flags a b va vb => exact .inr (by simpa using compareFlags_cases va vb)
  all_goals exact .inl (by simp)

/-- A completing instruction keeps the run state, or is HLT, which clears `running` and records Halted. -/
theorem Completes.stopped {i : Instr} {s t : State} (h : Completes s i t)
    (hs : s.running = true ↔ s.haltReason = .none) : t.running = true ↔ t.haltReason = .none := by
  by_cases hi : i = .hlt
  · subst hi
    cases h
    case halt => simp
    case register hw => exact hw.elim
    case jump hi | skip hi => simp [Instr.mnemonic] at hi
  · obtain ⟨hr, hh⟩ := h.runState hi
    rwa [hr, hh]

/-- Taking a fault keeps the invariant: it stops the machine and records why. -/
theorem State.Inv.raise {s : State} (h : s.Inv) (f : Raise) : (s.raise f).Inv where
  memory := h.memory
  flags := h.flags
  counter := h.counter
  stopped := by simp

/-- Settles O60: a step takes a fault or runs an instruction at an address, and each clause is kept by both. -/
theorem invariantKept : Obligations.InvariantKept := by
  intro s t hs ht
  obtain ⟨-, ⟨f, rfl⟩ | ⟨hp, i, -, hexec⟩⟩ := step_cases ht
  · exact hs.raise f
  · obtain ⟨f, rfl⟩ | hc := exec_cases hexec
    · exact hs.raise f
    · exact {
        memory := hc.memory_wf hs.memory
        flags := hc.flags_cases.elim (fun hfl => hfl ▸ hs.flags) .inr
        counter := exec_counter hp hexec
        stopped := hc.stopped hs.stopped }

end Sys2Proof.Machine
end

section
/-! The rule of each instruction (`spec/41_alu.md` to `spec/44_control_flow.md`): its completed effect, and its faults
in the spec's order (`spec/60_exceptions.md` section 3): operand bytes beyond memory, then register indices, then its
own. -/

namespace Sys2Proof.Machine

open Sys2Proof.Claims

/-! ### Faults of the operands, for every instruction -/

/-- With its operands in memory, an instruction faults on its first register-index byte if that is above 7, before it
looks at any other. -/
theorem exec_first_index_out {i : Instr} {s : State} {b : Byte} {bs : List Byte} (hmem : operandsInMemory i s)
    (hu : usedIndexBytes i s = b :: bs) (hb : 8 ≤ b.toNat) : exec i s = .next (indexFault s b) := by
  obtain ⟨hreads, hn⟩ := reads_of_operandsInMemory hmem
  have hchecks {n : Nat} {k : RegIdx → Check State} (h : s.pc.toNat + n < 256) :
      (do s.handlerReads n; let r ← regIndex b; k r) = .error (.outOfBoundsAccess .registerIndex b.toNat) := by
    rw [State.handlerReads_in h, Check.ok_bind, regIndex_out hb, Check.error_bind]
  cases i with
  | hlt | ret => cases hu
  | add | mul | mod | cmp | and | not | or | xor | shl | shr =>
    cases hu
    simp only [exec, execAdd, execMul, execMod, execCmp, execAnd, execNot, execOr, execXor, execShl, execShr,
      State.aluBinary]
    exact State.cycle_error hreads (hchecks (n := 0) (by omega))
  | ldi | st | push | pop | prn | call | jmp =>
    cases hu
    simp only [exec, execLdi, execSt, execPush, execPop, execPrn, execCall, execJmp, State.jumpTo]
    exact State.cycle_error hreads (hchecks hn)
  | jeq r =>
    cases he : s.equalFlag with
    | true =>
      cases (if_pos he).symm.trans hu
      simp only [exec, execJeq, if_pos he]
      exact State.cycle_error hreads (hchecks hn)
    | false => cases (if_neg (Bool.eq_false_iff.1 he)).symm.trans hu
  | jne r =>
    cases he : s.equalFlag with
    | true => cases (if_pos he).symm.trans hu
    | false =>
      cases (if_neg (Bool.eq_false_iff.1 he)).symm.trans hu
      simp only [exec, execJne, he, Bool.false_eq_true, if_false]
      exact State.cycle_error hreads (hchecks hn)

/-- With its operands in memory and its first of two register-index bytes in range, an instruction faults on the second
if that is above 7. -/
theorem exec_second_index_out {i : Instr} {s : State} {a b : Byte} (hmem : operandsInMemory i s)
    (hu : usedIndexBytes i s = [a, b]) (ha : a.toNat < 8) (hb : 8 ≤ b.toNat) : exec i s = .next (indexFault s b) := by
  obtain ⟨c, hc, hc8, he⟩ := registerIndexCheck.1 i s hmem ⟨b, by simp [hu], hb⟩
  obtain rfl | rfl : c = a ∨ c = b := by simpa [hu] using hc
  · omega
  · exact he

/-- At an address of at most 253 every operand byte is in memory, on either path. -/
theorem operandsInMemory_of_le {i : Instr} {s : State} (hp : s.pc.toNat ≤ 253) : operandsInMemory i s := by
  have := encode_length_le i
  unfold operandsInMemory
  split <;> omega

/-- The faults of an instruction with two register operands, from what it uses them for. -/
theorem twoRegisterFaults {mk : Byte → Byte → Instr} (hlen : ∀ a b, (mk a b).operands.length = 2 := by intros; rfl)
    (hu : ∀ a b s, usedIndexBytes (mk a b) s = [a, b] := by intros; rfl)
    (hs : ∀ a b s, ¬ (mk a b).skips s := by intro _ _ _; exact id) : TwoRegisterFaults mk := by
  refine fun s a b => ⟨fun h1 h2 => ?_, fun hp ha => ?_, fun hp ha hb => ?_⟩
  · exact exec_operands_out h2 (by rw [hlen]; omega) (hs a b s)
  · exact exec_first_index_out (operandsInMemory_of_le hp) (hu a b s) ha
  · exact exec_second_index_out (operandsInMemory_of_le hp) (hu a b s) ha hb

/-- The faults of a two-byte non-ALU instruction with one register operand that it reads. -/
theorem oneRegisterFaults {mk : Byte → Instr} {s : State}
    (hu : ∀ r, usedIndexBytes (mk r) s = [r] := by intros; rfl)
    (hs : ∀ r, ¬ (mk r).skips s := by intro _; exact id)
    (hlen : ∀ r, (mk r).operands.length = 1 := by intros; rfl)
    (halu : ∀ r, (mk r).mnemonic ∈ [.push, .pop, .prn, .call, .jmp, .jeq, .jne] := by simp [Instr.mnemonic]) :
    OneRegisterFaults mk s := by
  refine fun r => ⟨fun hp => ?_, fun hp hr => ?_⟩
  · exact exec_operands_out (by omega) (by rw [hlen]; omega) (hs r)
  · refine exec_first_index_out ?_ (hu r) hr
    have hbit : ∀ m ∈ [Mnemonic.push, .pop, .prn, .call, .jmp, .jeq, .jne], (opcodeOf m).getLsbD 5 = false := by decide
    rw [operandsInMemory, hbit _ (halu r), if_neg Bool.false_ne_true, encode, List.length_cons, hlen]
    omega

/-! ### The ALU -/

theorem low8_mod (e : Nat) : BitVec.ofNat 8 (e % 256) = low8 e :=
  BitVec.eq_of_toNat_eq (by simp [low8])

theorem State.aluBinary_ok {s : State} {m : Mnemonic} {f : Nat → Nat → Check Nat} {a b : Byte} {ra rb : RegIdx}
    {v : Nat} (hp : s.pc.toNat ≤ 253) (ha : a.toNat = ra.val) (hb : b.toNat = rb.val)
    (hv : f (s.reg ra).toNat (s.reg rb).toNat = .ok v) :
    s.aluBinary m f a b = .next ((s.setReg ra (low8 v)).engineAdvance (opcodeOf m)) :=
  State.cycle_ok (State.engineReads_in _ (by omega)) (by
    simp only [regIndex_eq_ok.2 ha, regIndex_eq_ok.2 hb, hv, Check.ok_bind])

/-- The whole rule of a binary ALU instruction, from its meaning as an `ALU_binary` of the model (R90). -/
theorem binaryAluRule {mk : Byte → Byte → Instr} {m : Mnemonic} {f g : Nat → Nat → Nat}
    (hexec : ∀ a b s, exec (mk a b) s = s.aluBinary m (fun va vb => .ok (g va vb)) a b)
    (hfg : ∀ va vb, g va vb = f va vb) (hfaults : TwoRegisterFaults mk)
    (hadvance : ∀ s : State, s.engineAdvance (opcodeOf m) = s.setPc (s.pc + 3) := by intros; rfl)
    (hencode : ∀ a b, encode (mk a b) = [opcodeOf m, a, b] := by intros; rfl) : BinaryAluRule mk (opcodeOf m) f := by
  refine ⟨hencode, fun s a b ra rb hp ha hb => ?_, hfaults⟩
  rw [hexec, State.aluBinary_ok hp ha hb rfl, hadvance, hfg, low8_mod]
  rfl

/-- Settles O1: the rule of a binary ALU instruction with ADD's operation. -/
theorem addRule : Obligations.AddRule :=
  binaryAluRule (m := .add) (fun _ _ _ => rfl) (fun _ _ => rfl) twoRegisterFaults

/-- Settles O2: the rule of a binary ALU instruction with MUL's operation. -/
theorem mulRule : Obligations.MulRule :=
  binaryAluRule (m := .mul) (fun _ _ _ => rfl) (fun _ _ => rfl) twoRegisterFaults

/-- Settles O4: the rule of a binary ALU instruction with AND's operation. -/
theorem andRule : Obligations.AndRule :=
  binaryAluRule (m := .and) (fun _ _ _ => rfl) (fun _ _ => rfl) twoRegisterFaults

/-- Settles O5: the rule of a binary ALU instruction with OR's operation. -/
theorem orRule : Obligations.OrRule :=
  binaryAluRule (m := .or) (fun _ _ _ => rfl) (fun _ _ => rfl) twoRegisterFaults

/-- Settles O6: the rule of a binary ALU instruction with XOR's operation. -/
theorem xorRule : Obligations.XorRule :=
  binaryAluRule (m := .xor) (fun _ _ _ => rfl) (fun _ _ => rfl) twoRegisterFaults

/-- What a binary ALU instruction leaves in its first register. -/
theorem result_of_binaryAluRule {mk : Byte → Byte → Instr} {opcode : Byte} {f : Nat → Nat → Nat}
    (h : BinaryAluRule mk opcode f) {s t : State} {a b : Byte} {ra rb : RegIdx} (hp : s.pc.toNat ≤ 253)
    (ha : a.toNat = ra.val) (hb : b.toNat = rb.val) (ht : exec (mk a b) s = .next t) :
    t.regs[ra] = BitVec.ofNat 8 (f s.regs[ra].toNat s.regs[rb].toNat % 256) := by
  obtain ⟨-, hok, -⟩ := h
  cases (hok s a b ra rb hp ha hb).symm.trans ht
  exact Vector.getElem_set_self ra.isLt

theorem shiftLeft_mod_256_of_8_le {n : Nat} (x : Nat) (h : 8 ≤ n) : (x <<< n) % 256 = 0 := by
  rw [Nat.shiftLeft_eq]
  exact Nat.mod_eq_zero_of_dvd ((Nat.pow_dvd_pow 2 h).mul_left x)

theorem byte_shiftRight_of_8_le {n : Nat} (x : Byte) (h : 8 ≤ n) : x.toNat >>> n = 0 :=
  Nat.shiftRight_eq_zero _ _ (x.isLt.trans_le (Nat.pow_le_pow_right (by decide) h))

/-- Settles O7: SHL multiplies by a power of two, of which 256 is a factor from an amount of 8 on. -/
theorem shlRule : Obligations.ShlRule := by
  have hrule : BinaryAluRule .shl 0xAC fun va vb => va <<< vb :=
    binaryAluRule (m := .shl) (g := fun va vb => va * 2 ^ vb) (fun _ _ _ => rfl)
      (fun va vb => (Nat.shiftLeft_eq va vb).symm) twoRegisterFaults
  refine ⟨hrule, fun s t a b ra rb hp ha hb h8 ht => ?_⟩
  rw [result_of_binaryAluRule hrule hp ha hb ht, shiftLeft_mod_256_of_8_le _ h8]
  rfl

/-- Settles O8: SHR divides by a power of two, which from an amount of 8 on exceeds every byte. -/
theorem shrRule : Obligations.ShrRule := by
  have hrule : BinaryAluRule .shr 0xAD fun va vb => va >>> vb :=
    binaryAluRule (m := .shr) (g := fun va vb => va / 2 ^ vb) (fun _ _ _ => rfl)
      (fun va vb => (Nat.shiftRight_eq_div_pow va vb).symm) twoRegisterFaults
  refine ⟨hrule, fun s t a b ra rb hp ha hb h8 ht => ?_⟩
  rw [result_of_binaryAluRule hrule hp ha hb ht, byte_shiftRight_of_8_le _ h8]
  rfl

theorem low8_mod_toNat (x y : Byte) : (low8 (x.toNat % y.toNat)).toNat = x.toNat % y.toNat :=
  Nat.mod_eq_of_lt ((Nat.mod_le _ _).trans_lt x.isLt)

/-- Settles O3: with a divisor the remainder fits a byte; without one the handler raises (`exec_mod_zero`). -/
theorem modRule : Obligations.ModRule := by
  refine ⟨fun _ _ => rfl, fun s a b ra rb hp ha hb h0 => ?_, fun s a b ra rb hp ha hb h0 => ?_, ?_⟩
  · have hv : s.regs[rb].toNat ≠ 0 := fun e => h0 (BitVec.eq_of_toNat_eq e)
    have hok : execMod a b s =
        .next ((s.setReg ra (low8 (s.regs[ra].toNat % s.regs[rb].toNat))).engineAdvance (opcodeOf .mod)) :=
      State.aluBinary_ok hp ha hb (if_neg hv)
    exact ⟨low8 (s.regs[ra].toNat % s.regs[rb].toNat), low8_mod_toNat _ _,
      (low8_mod_toNat _ _).trans_lt (Nat.mod_lt _ (Nat.pos_of_ne_zero hv)), hok⟩
  · exact exec_mod_zero (State.engineReads_in _ (by omega)) ha hb h0
  · exact twoRegisterFaults

theorem low8_complement (v : Byte) : low8 (255 - v.toNat) = ~~~ v := by
  have := Byte.toNat_lt v
  refine BitVec.eq_of_toNat_eq ?_
  rw [BitVec.toNat_not, low8, BitVec.toNat_ofNat]
  omega

/-- Settles O9: the complement as a difference from 255; the ALU path's reads fault from 254 on. -/
theorem notRule : Obligations.NotRule := by
  refine ⟨fun _ => rfl, fun s a ra hp ha => ?_, fun s a h1 h2 => ?_, fun s a hp ha => ?_, fun _ _ _ => rfl⟩
  · have hok : execNot a s = .next ((s.setReg ra (low8 (255 - (s.reg ra).toNat))).engineAdvance (opcodeOf .not)) :=
      State.cycle_ok (State.engineReads_in _ (by omega)) (by rw [regIndex_eq_ok.2 ha, Check.ok_bind])
    rw [low8_complement] at hok
    exact hok
  · exact exec_alu_out (opIsAlu_opcodeOf.2 (by simp [Instr.mnemonic])) h1 h2
  · exact exec_first_index_out (operandsInMemory_of_le hp) rfl ha

/-- Settles O10: the comparison is the model's `compareFlags`, evaluated. -/
theorem cmpRule : Obligations.CmpRule := by
  refine ⟨fun _ _ => rfl, fun s a b ra rb hp ha hb => ?_, ?_⟩
  · have hok : execCmp a b s =
        .next ((s.setFlags (compareFlags (s.reg ra) (s.reg rb))).engineAdvance (opcodeOf .cmp)) :=
      State.cycle_ok (State.engineReads_in _ (by omega))
        (by simp only [regIndex_eq_ok.2 ha, regIndex_eq_ok.2 hb, Check.ok_bind])
    exact hok
  · exact twoRegisterFaults

/-! ### LDI, PRN, ST -/

/-- Settles O13: the reads and the index check succeed, or one of them faults. -/
theorem ldiRule : Obligations.LdiRule := by
  refine ⟨fun _ _ => rfl, fun s r imm rr hp hr => ?_, fun s r imm h1 h2 => ?_, fun s r imm hp hr => ?_⟩
  · have hok : execLdi r imm s = .next ((s.setReg rr imm).engineAdvance (opcodeOf .ldi)) :=
      State.cycle_ok (State.engineReads_nonAlu rfl)
        (by rw [State.handlerReads_in (by omega), Check.ok_bind, regIndex_eq_ok.2 hr, Check.ok_bind])
    exact hok
  · exact exec_operands_out h2 (by simp only [Instr.operands, List.length_cons, List.length_nil]; omega) id
  · exact exec_first_index_out (operandsInMemory_of_le hp) rfl hr

/-- Settles O14: PRN's completed effect, and the faults of one register operand. -/
theorem prnRule : Obligations.PrnRule := by
  refine ⟨fun _ => rfl, fun s r rr hp hr => ?_, fun s => ?_⟩
  · have hok : execPrn r s = .next ((s.emit (s.reg rr)).engineAdvance (opcodeOf .prn)) :=
      State.cycle_ok (State.engineReads_nonAlu rfl)
        (by rw [State.handlerReads_in (by omega), Check.ok_bind, regIndex_eq_ok.2 hr, Check.ok_bind])
    exact hok
  · exact oneRegisterFaults

theorem execSt_ok {a b : Byte} {s : State} {ra rb : RegIdx} (hp : s.pc.toNat ≤ 253) (ha : a.toNat = ra.val)
    (hb : b.toNat = rb.val) :
    execSt a b s = .next ((s.setByte (s.reg ra).toNat (s.reg rb)).engineAdvance (opcodeOf .st)) :=
  State.cycle_ok (State.engineReads_nonAlu rfl) (by
    rw [State.handlerReads_in (by omega), Check.ok_bind, regIndex_eq_ok.2 ha, Check.ok_bind, regIndex_eq_ok.2 hb,
      Check.ok_bind, State.memWrite_byte])

/-- Settles O15: ST's completed effect is one `setByte`, and the faults of two register operands. -/
theorem stRule : Obligations.StRule := by
  refine ⟨fun _ _ => rfl, fun s a b ra rb hp ha hb => ⟨_, execSt_ok hp ha hb, rfl, ?_, fun x hx => ?_⟩, ?_⟩
  · rw [State.byteAt_engineAdvance]
    exact State.byteAt_setByte_same ..
  · rw [State.byteAt_engineAdvance]
    exact State.byteAt_setByte_ne s _ hx
  · exact twoRegisterFaults

/-! ### The stack -/

theorem spDown_of_ne_zero {v : Byte} (h : v ≠ 0) : spDown v = .ok (v - 1) :=
  spDown_eq_ok.2 (by bv_omega)

theorem spUp_of_ne_max {v : Byte} (h : v ≠ 255) : spUp v = .ok (v + 1) :=
  spUp_eq_ok.2 (by bv_omega)

theorem State.sp_eq (s : State) : s.sp = s.regs[7] := rfl

/-- A store at the decremented pointer, read back at every address. -/
theorem State.byteAt_push (s : State) (nsp v : Byte) :
    ((s.setReg spIndex nsp).setByte nsp.toNat v).byteAt nsp.toNat = v ∧
      ∀ x, x ≠ nsp.toNat → ((s.setReg spIndex nsp).setByte nsp.toNat v).byteAt x = s.byteAt x :=
  ⟨State.byteAt_setByte_same .., fun _ hx => State.byteAt_setByte_ne (s.setReg spIndex nsp) v hx⟩

/-- PUSH with its operand byte in memory and a valid index goes by the pointer (R121). -/
theorem execPush_eq {r : Byte} {s : State} {rr : RegIdx} (hp : s.pc.toNat ≤ 254) (hr : r.toNat = rr.val) :
    execPush r s = s.cycle .push (do
      let nsp ← spDown s.sp
      .ok ((s.setReg spIndex nsp).setByte nsp.toNat (s.regAfterSp nsp rr))) := by
  rw [execPush, State.handlerReads_in (by omega), Check.ok_bind, regIndex_eq_ok.2 hr, Check.ok_bind]
  simp only [State.pushByte_eq]

/-- Settles O16: PUSH's completed effect is a store at the decremented pointer; its own fault comes after the index
check. -/
theorem pushRule : Obligations.PushRule := by
  refine ⟨fun _ => rfl, fun s r rr hp hr h7 => ?_, fun s r hp hr h7 => ?_, fun s => ?_⟩
  · have hok : execPush r s = .next (((s.setReg spIndex (s.regs[7] - 1)).setByte (s.regs[7] - 1).toNat
        (s.regAfterSp (s.regs[7] - 1) rr)).engineAdvance (opcodeOf .push)) := by
      rw [execPush_eq hp hr, State.sp_eq, spDown_of_ne_zero h7, Check.ok_bind]
      exact State.cycle_ok (State.engineReads_nonAlu rfl) rfl
    obtain ⟨hsame, hother⟩ := s.byteAt_push (s.regs[7] - 1) (s.regAfterSp (s.regs[7] - 1) rr)
    exact ⟨_, hok, rfl, by rw [State.byteAt_engineAdvance]; exact hsame,
      fun x hx => by rw [State.byteAt_engineAdvance]; exact hother x hx⟩
  · have herr : execPush r s = .next (s.raise (.outOfBoundsAccess .stackPointer (-1))) := by
      rw [execPush_eq (rr := ⟨r.toNat, hr⟩) hp rfl, State.sp_eq, h7, spDown_zero, Check.error_bind]
      exact State.cycle_error (State.engineReads_nonAlu rfl) rfl
    exact herr
  · exact oneRegisterFaults

/-- POP with its operand byte in memory goes by the index and by the pointer it would increment (R123). -/
theorem execPop_eq {r : Byte} {s : State} {rr : RegIdx} (hp : s.pc.toNat ≤ 254) (hr : r.toNat = rr.val) :
    execPop r s = s.cycle .pop (do
      let nsp ← spUp (if rr = spIndex then s.byteAt s.sp.toNat else s.sp)
      .ok ((if rr = spIndex then s else s.setReg rr (s.byteAt s.sp.toNat)).setReg spIndex nsp)) := by
  rw [execPop, State.handlerReads_in (by omega), Check.ok_bind, regIndex_eq_ok.2 hr, Check.ok_bind, State.memRead_byte,
    Check.ok_bind]

/-- Settles O17: for a register other than R7 the pointer to increment is `x[7]`. -/
theorem popRule : Obligations.PopRule := by
  refine ⟨fun _ => rfl, fun s r rr hp hr hne h7 => ?_, fun s r hp hr h7 => ?_, fun s => ?_⟩
  · have hsp : rr ≠ spIndex := hne
    have hok : execPop r s = .next (((s.setReg rr (s.byteAt s.sp.toNat)).setReg spIndex (s.regs[7] + 1)).engineAdvance
        (opcodeOf .pop)) := by
      rw [execPop_eq hp hr, if_neg hsp, if_neg hsp, State.sp_eq, spUp_of_ne_max h7, Check.ok_bind]
      exact State.cycle_ok (State.engineReads_nonAlu rfl) rfl
    exact hok
  · have hne : (⟨r.toNat, by omega⟩ : RegIdx) ≠ spIndex := Fin.ne_of_lt hr
    have herr : execPop r s = .next (s.raise (.outOfBoundsAccess .stackPointer 256)) := by
      rw [execPop_eq (rr := ⟨r.toNat, by omega⟩) hp rfl, if_neg hne, State.sp_eq, h7, spUp_max, Check.error_bind]
      exact State.cycle_error (State.engineReads_nonAlu rfl) rfl
    exact herr
  · exact oneRegisterFaults

/-- Settles O18: for R7 the pointer to increment is the loaded byte. -/
theorem popStackPointerRule : Obligations.PopStackPointerRule := by
  refine ⟨fun s hp h255 => ?_, fun s hp h255 => ?_⟩
  · have hok : execPop 7 s =
        .next ((s.setReg spIndex (s.byteAt s.regs[7].toNat + 1)).engineAdvance (opcodeOf .pop)) := by
      rw [execPop_eq (r := 7) (rr := spIndex) hp rfl, if_pos rfl, if_pos rfl, State.sp_eq, spUp_of_ne_max h255,
        Check.ok_bind]
      exact State.cycle_ok (State.engineReads_nonAlu rfl) rfl
    exact hok
  · have herr : execPop 7 s = .next (s.raise (.outOfBoundsAccess .stackPointer 256)) := by
      rw [execPop_eq (r := 7) (rr := spIndex) hp rfl, if_pos rfl, State.sp_eq, h255, spUp_max, Check.error_bind]
      exact State.cycle_error (State.engineReads_nonAlu rfl) rfl
    exact herr

/-! ### Control transfer -/

theorem returnAddress_in {ia : PcWord} (h : ia.toNat ≤ 253) : returnAddress ia = .ok (BitVec.ofNat 8 (ia.toNat + 2)) :=
  if_pos (by simp only [memSize_eq]; omega)

theorem returnAddress_out {ia : PcWord} (h : ia.toNat = 254) :
    returnAddress ia = .error (.outOfBoundsAccess .memoryAddress 256) := by
  rw [returnAddress, h]
  rfl

/-- CALL with its operand byte in memory and a valid index goes by the return address and the pointer (R131). -/
theorem execCall_eq {r : Byte} {s : State} {rr : RegIdx} (hp : s.pc.toNat ≤ 254) (hr : r.toNat = rr.val) :
    execCall r s = s.cycle .call (do
      let ret ← returnAddress s.pc
      let nsp ← spDown s.sp
      .ok (((s.setReg spIndex nsp).setByte nsp.toNat ret).setPc (targetOf (s.regAfterSp nsp rr)))) := by
  rw [execCall, State.handlerReads_in (by omega), Check.ok_bind, regIndex_eq_ok.2 hr, Check.ok_bind]
  simp only [State.pushByte_eq, Check.ok_bind]

/-- Settles O19: CALL checks its return address, then the pointer, and then stores and jumps. -/
theorem callRule : Obligations.CallRule := by
  refine ⟨fun _ => rfl, fun s r rr hp hr h7 => ?_, fun s r hp hr => ?_, fun s r hp hr h7 => ?_, fun s => ?_⟩
  · have hok : execCall r s = .next (((s.setReg spIndex (s.regs[7] - 1)).setByte (s.regs[7] - 1).toNat
        (BitVec.ofNat 8 (s.pc.toNat + 2))).setPc (targetOf (s.regAfterSp (s.regs[7] - 1) rr))) := by
      rw [execCall_eq (by omega) hr, returnAddress_in hp, Check.ok_bind, State.sp_eq, spDown_of_ne_zero h7,
        Check.ok_bind]
      exact State.cycle_ok (State.engineReads_nonAlu rfl) rfl
    obtain ⟨hsame, hother⟩ := s.byteAt_push (s.regs[7] - 1) (BitVec.ofNat 8 (s.pc.toNat + 2))
    refine ⟨_, hok, rfl, ?_, fun x hx => hother x hx⟩
    rw [State.byteAt_setPc, hsame, BitVec.toNat_ofNat]
    omega
  · have herr : execCall r s = .next (s.raise (.outOfBoundsAccess .memoryAddress 256)) := by
      rw [execCall_eq (rr := ⟨r.toNat, hr⟩) (by omega) rfl, returnAddress_out hp, Check.error_bind]
      exact State.cycle_error (State.engineReads_nonAlu rfl) rfl
    exact herr
  · have herr : execCall r s = .next (s.raise (.outOfBoundsAccess .stackPointer (-1))) := by
      rw [execCall_eq (rr := ⟨r.toNat, hr⟩) (by omega) rfl, returnAddress_in hp, Check.ok_bind, State.sp_eq, h7,
        spDown_zero, Check.error_bind]
      exact State.cycle_error (State.engineReads_nonAlu rfl) rfl
    exact herr
  · exact oneRegisterFaults

/-- Settles O20: RET's read at the pointer never raises, so it goes by the pointer alone. -/
theorem retRule : Obligations.RetRule := by
  have hret (s : State) : execRet s = s.cycle .ret (do
      let nsp ← spUp s.sp
      .ok ((s.setReg spIndex nsp).setPc (targetOf (s.byteAt s.sp.toNat)))) := by
    rw [execRet, State.memRead_byte, Check.ok_bind]
  refine ⟨rfl, fun s h7 => ?_, fun s h7 => ?_⟩
  · refine (hret s).trans ?_
    rw [State.sp_eq, spUp_of_ne_max h7, Check.ok_bind]
    exact State.cycle_ok (State.engineReads_nonAlu rfl) rfl
  · refine (hret s).trans ?_
    rw [State.sp_eq, h7, spUp_max, Check.error_bind]
    exact State.cycle_error (State.engineReads_nonAlu rfl) rfl

theorem State.jumpTo_ok {s : State} {r : Byte} {rr : RegIdx} (hp : s.pc.toNat ≤ 254) (hr : r.toNat = rr.val) :
    s.jumpTo r = .ok (s.setPc (targetOf (s.reg rr))) :=
  State.jumpTo_eq_ok.2 ⟨by omega, rr, hr, rfl⟩

/-- Settles O21: JMP is always taken. -/
theorem jmpRule : Obligations.JmpRule := by
  refine ⟨fun _ => rfl, fun s r rr hp hr => ?_, fun s => ?_⟩
  · exact State.cycle_ok (m := .jmp) (State.engineReads_nonAlu rfl) (State.jumpTo_ok hp hr)
  · exact oneRegisterFaults

/-- Settles O22: JEQ is taken when E is 1, and otherwise skips its operand (`exec_of_skips`). -/
theorem jeqRule : Obligations.JeqRule := by
  refine ⟨fun _ => rfl, fun s r rr hE hp hr => ?_, fun s r hE => ?_, fun s hE => ?_⟩
  · exact State.cycle_ok (m := .jeq) (State.engineReads_nonAlu rfl) ((if_pos hE).trans (State.jumpTo_ok hp hr))
  · exact exec_of_skips hE
  · exact oneRegisterFaults (fun _ => if_pos hE) fun _ => ne_false_of_eq_true hE

/-- Settles O23: JNE is taken when E is 0, and otherwise skips its operand (`exec_of_skips`). -/
theorem jneRule : Obligations.JneRule := by
  refine ⟨fun _ => rfl, fun s r rr hE hp hr => ?_, fun s r hE => ?_, fun s hE => ?_⟩
  · exact State.cycle_ok (m := .jne) (State.engineReads_nonAlu rfl)
      ((if_neg (ne_true_of_eq_false hE)).trans (State.jumpTo_ok hp hr))
  · exact exec_of_skips hE
  · exact oneRegisterFaults (fun _ => if_neg (ne_true_of_eq_false hE)) fun _ => ne_true_of_eq_false hE

end Sys2Proof.Machine
end

section
/-! Cycles and pairs of cycles: the step runs the instruction whose bytes lie at `pc` (`spec/40_engine.md` R77), a store
is seen by the next fetch (`spec/20_memory.md` R40), and CMP with a jump (`spec/41_alu.md` R100), PUSH with POP
(`spec/43_stack.md` R122) and CALL with RET (`spec/44_control_flow.md` R136). -/

namespace Sys2Proof.Machine

open Sys2Proof.Claims

/-- Settles O40: the law of a fetch that decodes. -/
theorem stepRunsDecodedInstruction : Obligations.StepRunsDecodedInstruction :=
  fun _ _ hr hp hd => step_of_decodeBytes hr (Nat.lt_succ_of_le hp) hd

theorem PcWord.toNat_add_three {p : PcWord} (h : p.toNat < 256) : (p + 3).toNat = p.toNat + 3 :=
  PcWord.toNat_add_ofNat (n := 3) (by omega)

/-- Each of the fetched bytes that lies in memory is the byte there. -/
theorem State.window_getD {s : State} {k : Nat} (hk : k < 3) (h : s.pc.toNat + k < 256) :
    s.window.getD k 0 = s.byteAt (s.pc.toNat + k) := by
  obtain rfl | rfl | rfl : k = 0 ∨ k = 1 ∨ k = 2 := by omega
  · rfl
  · exact if_pos h
  · exact if_pos h

/-- Settles O41: the fetched bytes are those at `pc`, so they have the instruction's own bytes at their front. -/
theorem stepRunsEncodedInstruction : Obligations.StepRunsEncodedInstruction := by
  intro s i hr hfit hbytes
  have hlen : 0 < (encode i).length := Nat.succ_pos _
  refine step_of_decodeBytes hr (by omega) (decodeBytes_eq_ok.2 fun k hk => ?_)
  have := encode_length_le i
  rw [State.window_getD (by omega) (by omega), hbytes k hk, List.getD_eq_getElem _ _ hk]

/-- A two-byte instruction in memory at `pc` is the one the step runs. -/
theorem step_of_two_bytes {s : State} {i : Instr} {op r : Byte} (hi : encode i = [op, r]) (hr : s.running = true)
    (hp : s.pc.toNat ≤ 254) (h0 : s.byteAt s.pc.toNat = op) (h1 : s.byteAt (s.pc.toNat + 1) = r) :
    step s = exec i s := by
  have hlen : (encode i).length = 2 := congrArg List.length hi
  refine stepRunsEncodedInstruction s i hr (by omega) fun k hk => ?_
  obtain rfl | rfl : k = 0 ∨ k = 1 := by omega
  · simpa [hi] using h0
  · simpa [hi] using h1

/-! ### CMP and then a conditional jump -/

/-- CMP sets E exactly for equal values. -/
theorem outcomeFlags_equal (va vb : Nat) : (outcomeFlags va vb).getLsbD 0 = decide (va = vb) := by
  unfold outcomeFlags
  split
  · next h => rw [decide_eq_true h]; rfl
  · next h =>
    rw [decide_eq_false h]
    split <;> rfl

/-- Settles O11: CMP leaves E set exactly for equal registers, and the jump then goes by its own rule. -/
theorem compareThenJump : Obligations.CompareThenJump := by
  intro s t a b r ra rb rr ha hb hr hp ht
  obtain ⟨-, hcmp, -⟩ := cmpRule
  obtain ⟨-, hjeqTaken, hjeqSkips, -⟩ := jeqRule
  obtain ⟨-, hjneTaken, hjneSkips, -⟩ := jneRule
  cases (hcmp s a b ra rb (by omega) ha hb).symm.trans ht
  have hpc : (s.pc + 3).toNat ≤ 254 := by
    rw [PcWord.toNat_add_three (by omega)]
    omega
  have hskip : s.pc + 3 + 2 = s.pc + 5 := BitVec.add_assoc s.pc 3 2
  have hE := outcomeFlags_equal s.regs[ra].toNat s.regs[rb].toNat
  by_cases heq : s.regs[ra] = s.regs[rb]
  · rw [decide_eq_true (congrArg BitVec.toNat heq)] at hE
    rw [if_pos heq, if_pos heq, ← hskip]
    exact ⟨hjeqTaken _ r rr hE hpc hr, hjneSkips _ r hE⟩
  · rw [decide_eq_false (mt BitVec.eq_of_toNat_eq heq)] at hE
    rw [if_neg heq, if_neg heq, ← hskip]
    exact ⟨hjeqSkips _ r hE, hjneTaken _ r rr hE hpc hr⟩

/-! ### The stack's pairs -/

/-- Settles O25: RET pops the byte that CALL pushed, from where CALL left the pointer. -/
theorem callThenRet : Obligations.CallThenRet := by
  intro s t u r hp hr h7 ht hu7 hubyte
  obtain ⟨-, hcall, -⟩ := callRule
  obtain ⟨-, hret, -⟩ := retRule
  obtain ⟨t', ht', htEq, htop, -⟩ := hcall s r ⟨r.toNat, hr⟩ hp rfl h7
  cases ht'.symm.trans ht
  have ht7 : t.regs[7] = s.regs[7] - 1 := by
    rw [htEq]
    exact Vector.getElem_set_self (by decide)
  rw [ht7] at hu7 hubyte
  refine ⟨_, hret u (by rw [hu7]; bv_omega), ?_, ?_⟩
  · refine BitVec.eq_of_toNat_eq ?_
    rw [PcWord.toNat_add_two (by omega), hubyte]
    exact (targetOf_toNat _).trans htop
  · calc (u.regs.set 7 (u.regs[7] + 1))[7] = u.regs[7] + 1 := Vector.getElem_set_self (by decide)
      _ = s.regs[7] := by rw [hu7]; bv_omega

/-- Pushing and popping a register other than the pointer restores them all. -/
theorem regs_push_pop (v : Vector Byte 8) (rr : RegIdx) :
    ((v.set 7 (v[7] - 1)).set rr v[rr]).set 7 (v[7] - 1 + 1) = v := by
  refine Vector.ext fun q hq => ?_
  simp only [Vector.getElem_set, BitVec.sub_add_cancel]
  split
  · next h => subst h; rfl
  · split
    · next h => subst h; rfl
    · rfl

/-- Pushing and popping the pointer restores it. -/
theorem regs_push_pop_sp (v : Vector Byte 8) : (v.set 7 (v[7] - 1)).set 7 (v[7] - 1 + 1) = v := by
  rw [Vector.set_set, BitVec.sub_add_cancel, Vector.set_getElem_self]

/-- POP Rr on the stack that PUSH Rr leaves restores every register. -/
theorem exec_pop_of_push {s t : State} {rr : RegIdx} {r : Byte} (hr : r.toNat = rr.val) (h7 : s.regs[7] ≠ 0)
    (ht : t.regs = s.regs.set 7 (s.regs[7] - 1)) (hp : t.pc.toNat ≤ 254)
    (htop : t.byteAt (s.regs[7] - 1).toNat = if rr = 7 then s.regs[7] - 1 else s.regs[rr]) :
    exec (.pop r) t = .next { t with regs := s.regs, pc := t.pc + 2 } := by
  have ht7 : t.regs[7] = s.regs[7] - 1 := by
    simp only [ht]
    exact Vector.getElem_set_self (by decide)
  have h255 : s.regs[7] - 1 ≠ 255 := by bv_omega
  by_cases hrr : rr = 7
  · subst hrr
    have hr7 : r = 7 := BitVec.eq_of_toNat_eq hr
    rw [if_pos rfl, ← ht7] at htop
    rw [hr7, popStackPointerRule.1 t hp (by rw [htop, ht7]; exact h255), htop, ht7, ht, regs_push_pop_sp]
  · obtain ⟨-, hpop, -⟩ := popRule
    rw [if_neg hrr, ← ht7] at htop
    rw [hpop t r rr hp hr hrr (by rw [ht7]; exact h255), htop, ht7, ht, regs_push_pop]

/-- Settles O24: two cycles, each of which runs the instruction in memory at its `pc`; the POP's bytes are not the cell
pushed to, and it pops what the PUSH stored. -/
theorem pushThenPop : Obligations.PushThenPop := by
  intro s r hrun hp hr h7 hb0 hb1 hb2 hb3 hne2 hne3
  obtain ⟨hencPush, hpush, -⟩ := pushRule
  obtain ⟨hencPop, -⟩ := popRule
  obtain ⟨t, ht, htEq, htop, hother⟩ := hpush s r ⟨r.toNat, hr⟩ (by omega) rfl h7
  have hpc : t.pc = s.pc + 2 := congrArg State.pc htEq
  have hpcNat : t.pc.toNat = s.pc.toNat + 2 := by rw [hpc, PcWord.toNat_add_two (by omega)]
  have hstepT : step t = exec (.pop r) t := by
    refine step_of_two_bytes (hencPop r) ((congrArg State.running htEq).trans hrun) (by omega) ?_ ?_
    · rw [hpcNat, hother _ hne2.symm, hb2]
    · rw [hpcNat, hother _ hne3.symm, hb3]
  have hpop := exec_pop_of_push (s := s) (rr := ⟨r.toNat, hr⟩) rfl h7 (congrArg State.regs htEq) (by omega) htop
  refine ⟨t, { s with mem := t.mem, pc := s.pc + 4 }, ?_, ?_, rfl⟩
  · rw [step_of_two_bytes (hencPush r) hrun (by omega) hb0 hb1, ht]
  · rw [hstepT, hpop, hpc, BitVec.add_assoc, htEq]
    rfl

/-! ### A store and the next fetch -/

/-- Settles O34: the next fetch reads memory after the store, and a stored HLT is the instruction it decodes. -/
theorem storeSeenByNextFetch : Obligations.StoreSeenByNextFetch := by
  intro s t a b ra rb hrun hp ha hb ht
  obtain ⟨-, hst, -⟩ := stRule
  obtain ⟨-, hhlt, -⟩ := hltRule
  obtain ⟨t', ht', htEq, hsame, hother⟩ := hst s a b ra rb (by omega) ha hb
  cases ht'.symm.trans ht
  have hpc : t.pc = s.pc + 3 := congrArg State.pc htEq
  have hpcNat : t.pc.toNat = s.pc.toNat + 3 := by rw [hpc, PcWord.toNat_add_three (by omega)]
  constructor
  · intro k hk hfit
    rw [State.window_getD hk (by omega), hpcNat]
    split
    · next h => rw [h, hsame]
    · next h => exact hother _ h
  · intro haddr hbyte
    have hfetch : step t = exec .hlt t := by
      refine stepRunsEncodedInstruction t .hlt ((congrArg State.running htEq).trans hrun) ?_ fun k hk => ?_
      · rw [hpcNat]; exact Nat.add_le_add_right hp 4
      · obtain rfl : k = 0 := Nat.lt_one_iff.1 hk
        rw [hpcNat, Nat.add_zero, ← haddr, hsame, hbyte]
        rfl
    rw [hfetch, hhlt, hpc, BitVec.add_assoc]
    rfl

end Sys2Proof.Machine
end

section
/-! What no instruction reads (`spec/10_state.md` R15, R20): G, L and the output. Two states that agree on everything
but `fl` and the output, and on E, go in lockstep: every check raises in both or in neither, and the next states agree
again. One rule per operation that a handler is made of; the 21 handlers are then composed from the rules. -/

namespace Sys2Proof.Machine

open Sys2Proof.Claims

/-- `s` with other flags and another output. -/
def State.withFlOut (s : State) (fl : Byte) (out : List Byte) : State := { s with fl := fl, out := out }

/-- `t'` follows from `s.withFlOut fl out` as `t` does from `s`: it is `t` but for `fl` and the output, to which the
same values are appended, and the flags are either as before in both or equal. -/
def Follows (s : State) (fl : Byte) (out : List Byte) (t t' : State) : Prop :=
  ∃ (fl' : Byte) (v : List Byte), t' = t.withFlOut fl' (out ++ v) ∧ t.out = s.out ++ v ∧
    (fl' = fl ∧ t.fl = s.fl ∨ fl' = t.fl)

/-- A handler started in `s` and one started in `s.withFlOut fl out` raise the same, or complete in states that
follow. -/
def LockStep (s : State) (fl : Byte) (out : List Byte) : Check State → Check State → Prop
  | .ok t, .ok t' => Follows s fl out t t'
  | .error f, .error f' => f = f'
  | _, _ => False

section
variable {s : State} {fl : Byte} {out : List Byte}

theorem Follows.keeps {t : State} (hfl : t.fl = s.fl) (hout : t.out = s.out) :
    Follows s fl out t (t.withFlOut fl out) :=
  ⟨fl, [], by rw [List.append_nil], by rw [hout, List.append_nil], .inl ⟨rfl, hfl⟩⟩

theorem LockStep.keeps {t : State} (hfl : t.fl = s.fl) (hout : t.out = s.out) :
    LockStep s fl out (.ok t) (.ok (t.withFlOut fl out)) :=
  Follows.keeps hfl hout

theorem LockStep.setFlags (v : Byte) :
    LockStep s fl out (.ok (s.setFlags v)) (.ok ((s.withFlOut fl out).setFlags v)) :=
  ⟨v, [], by rw [List.append_nil]; rfl, by rw [List.append_nil]; rfl, .inr rfl⟩

theorem LockStep.emit (v : Byte) : LockStep s fl out (.ok (s.emit v)) (.ok ((s.withFlOut fl out).emit v)) :=
  ⟨fl, [v], rfl, rfl, .inl ⟨rfl, rfl⟩⟩

/-- The same check before handlers that go in lockstep whatever it gives. -/
theorem LockStep.bind {α : Type} {c : Check α} {k k' : α → Check State} (hk : ∀ a, LockStep s fl out (k a) (k' a)) :
    LockStep s fl out (c >>= k) (c >>= k') := by
  cases c with
  | ok a => exact hk a
  | error f => exact rfl

theorem LockStep.ite {c : Bool} {h h' g g' : Check State} (ht : LockStep s fl out h g) (hf : LockStep s fl out h' g') :
    LockStep s fl out (if c then h else h') (if c then g else g') := by
  cases c <;> assumption

theorem State.jumpTo_lockStep (r : Byte) : LockStep s fl out (s.jumpTo r) ((s.withFlOut fl out).jumpTo r) :=
  .bind fun _ => .bind fun _ => .keeps rfl rfl

theorem State.skipJump_lockStep : LockStep s fl out s.skipJump (s.withFlOut fl out).skipJump := .keeps rfl rfl

theorem State.raise_follows (f : Raise) : Follows s fl out (s.raise f) ((s.withFlOut fl out).raise f) :=
  Follows.keeps rfl rfl

theorem Follows.engineAdvance {t t' : State} (h : Follows s fl out t t') (ir : Byte) :
    Follows s fl out (t.engineAdvance ir) (t'.engineAdvance ir) := by
  obtain ⟨fl', v, rfl, hout, hfl⟩ := h
  refine ⟨fl', v, ?_, ?_, ?_⟩
  · unfold State.engineAdvance
    split <;> rfl
  · rw [State.engineAdvance_out, hout]
  · rw [State.engineAdvance_fl]
    exact hfl

/-- Cycles around handlers that go in lockstep answer states that follow: the engine's reads look at `pc` alone. -/
theorem State.cycle_follows {t : State} {m : Mnemonic} {h h' : Check State} (hh : LockStep s fl out h h')
    (ht : s.cycle m h = .next t) : ∃ t', (s.withFlOut fl out).cycle m h' = .next t' ∧ Follows s fl out t t' := by
  cases hr : s.engineReads (opcodeOf m) with
  | error f =>
    cases (State.cycle_reads_error hr).symm.trans ht
    exact ⟨_, State.cycle_reads_error hr, State.raise_follows f⟩
  | ok _ =>
    cases h with
    | error f =>
      cases h' with
      | error f' =>
        cases (State.cycle_error hr rfl).symm.trans ht
        obtain rfl : f = f' := hh
        exact ⟨_, State.cycle_error hr rfl, State.raise_follows f⟩
      | ok _ => exact hh.elim
    | ok u =>
      cases h' with
      | error _ => exact hh.elim
      | ok u' =>
        cases (State.cycle_ok hr rfl).symm.trans ht
        exact ⟨_, State.cycle_ok hr rfl, Follows.engineAdvance hh _⟩

/-- Every instruction's handlers in the two states go in lockstep. -/
theorem exec_lockStep (i : Instr) (hE : (s.withFlOut fl out).equalFlag = s.equalFlag) :
    ∃ h h', exec i s = s.cycle i.mnemonic h ∧ exec i (s.withFlOut fl out) = (s.withFlOut fl out).cycle i.mnemonic h' ∧
      LockStep s fl out h h' := by
  cases i <;>
    simp only [exec, execAdd, execMul, execMod, execCmp, execAnd, execNot, execOr, execXor, execShl, execShr, execHlt,
      execLdi, execSt, execPush, execPop, execPrn, execCall, execRet, execJmp, execJeq, execJne, State.aluBinary,
      Instr.mnemonic] <;>
    refine ⟨_, _, rfl, rfl, ?_⟩
  case add | mul | mod | and | or | xor | shl | shr =>
    exact .bind fun _ => .bind fun _ => .bind fun _ => .keeps rfl rfl
  case cmp => exact .bind fun _ => .bind fun _ => .setFlags _
  case not => exact .bind fun _ => .keeps rfl rfl
  case hlt => exact .keeps rfl rfl
  case ldi => exact .bind fun _ => .bind fun _ => .keeps rfl rfl
  case prn => exact .bind fun _ => .bind fun _ => .emit _
  case st =>
    refine .bind fun _ => .bind fun _ => .bind fun _ => ?_
    rw [State.memWrite_byte, State.memWrite_byte]
    exact .keeps rfl rfl
  case push =>
    refine .bind fun _ => .bind fun _ => .bind fun _ => ?_
    rw [State.pushByte_eq, State.pushByte_eq]
    exact .keeps rfl rfl
  case pop =>
    refine .bind fun _ => .bind fun _ => .bind fun _ => .bind fun _ => ?_
    split <;> exact .keeps rfl rfl
  case call =>
    refine .bind fun _ => .bind fun _ => .bind fun _ => .bind fun _ => ?_
    rw [State.pushByte_eq, State.pushByte_eq]
    exact .keeps rfl rfl
  case ret => exact .bind fun _ => .bind fun _ => .keeps rfl rfl
  case jmp r => exact State.jumpTo_lockStep r
  case jeq r => rw [hE]; exact .ite (State.jumpTo_lockStep r) State.skipJump_lockStep
  case jne r => rw [hE]; exact .ite State.skipJump_lockStep (State.jumpTo_lockStep r)

theorem State.rejectOpcode_follows (e : DecodeError) :
    Follows s fl out (s.rejectOpcode e) ((s.withFlOut fl out).rejectOpcode e) := by
  cases e with
  | unknownOpcode ir => exact State.raise_follows _
  | unsupportedALUOperation ir =>
    cases hr : s.engineReads ir with
    | ok _ =>
      rw [State.rejectOpcode_unsupported hr, State.rejectOpcode_unsupported (s := s.withFlOut fl out) hr]
      exact State.raise_follows _
    | error f =>
      rw [State.rejectOpcode_reads_error hr, State.rejectOpcode_reads_error (s := s.withFlOut fl out) hr]
      exact State.raise_follows f

/-- A step from `s` and one from `s` with other flags, of the same E, and another output answer states that follow. -/
theorem step_follows {t : State} (hE : fl.getLsbD 0 = s.fl.getLsbD 0) (ht : step s = .next t) :
    ∃ t', step (s.withFlOut fl out) = .next t' ∧ Follows s fl out t t' := by
  obtain ⟨hrun, -⟩ := step_cases ht
  by_cases hp : s.pc.toNat < 256
  · cases hd : decodeBytes s.window with
    | ok i =>
      obtain ⟨h, h', he, he', hh⟩ := exec_lockStep i (s := s) (out := out) hE
      rw [step_of_decodeBytes hrun hp hd, he] at ht
      rw [step_of_decodeBytes (s := s.withFlOut fl out) hrun hp hd, he']
      exact State.cycle_follows hh ht
    | error e =>
      cases (step_of_decodeBytes_error hrun hp hd).symm.trans ht
      exact ⟨_, step_of_decodeBytes_error (s := s.withFlOut fl out) hrun hp hd, State.rejectOpcode_follows e⟩
  · cases (step_of_pc_out hrun (Nat.not_lt.1 hp)).symm.trans ht
    exact ⟨_, step_of_pc_out (s := s.withFlOut fl out) hrun (Nat.not_lt.1 hp), State.raise_follows _⟩

end

/-- Settles O54: the states go in lockstep with the same output, and E is the same in next states that follow. -/
theorem greaterAndLessNeverRead : Obligations.GreaterAndLessNeverRead := by
  rintro s s' t ⟨hs', hE⟩ ht
  obtain ⟨t', ht', fl', v, rfl, hout, hfl⟩ := step_follows (out := s.out) hE ht
  rw [hs']
  refine ⟨_, ht', by rw [← hout]; rfl, ?_⟩
  obtain ⟨rfl, hsame⟩ | rfl := hfl
  · exact hE.trans (congrArg (BitVec.getLsbD · 0) hsame.symm)
  · rfl

/-- Settles O55: the states go in lockstep with the same flags, which are then the same in next states that follow. -/
theorem outputNeverRead : Obligations.OutputNeverRead := by
  intro s t o ht
  obtain ⟨t', ht', fl', v, rfl, hout, hfl⟩ := step_follows (fl := s.fl) (out := o) rfl ht
  obtain rfl : fl' = t.fl := hfl.elim (fun ⟨h, h'⟩ => h.trans h'.symm) id
  exact ⟨v, hout, ht'⟩

end Sys2Proof.Machine
end
